-- ==== Sys2Proof/Word.lean ====
section
/-! DEFINITION. The value types of the machine: what the spec treats as bits (00_scope.md R7, R8). -/

namespace Sys2Proof

/-- An 8-bit unsigned value: a register, a memory byte, a timer, `kk` (R7 `REG_W`, `TIMER_W`). -/
abbrev Byte := BitVec 8

/-- A 16-bit unsigned value: `pc`, `I`, a stack entry, `IR`, an instruction word (R7). -/
abbrev Word := BitVec 16

/-- A 4-bit instruction field (00_scope.md R13 "Nibble"; 30_encoding.md R71). -/
abbrev Nib := BitVec 4

/-- The index of a general register: a 4-bit field, so always in 0..15 (10_state.md R21). -/
abbrev Reg := BitVec 4

/-- The 12-bit address field `nnn` (30_encoding.md R71). -/
abbrev Addr := BitVec 12

/-- Register 15, `VF`, which doubles as the flag (10_state.md R22). -/
abbrev VF : Reg := 0xF#4

end Sys2Proof
end

