-- ==== Sys2Proof/Syntax.lean ====
section
/-! DEFINITION. The instructions: one constructor per row of Table E-1 (30_encoding.md R80), in its order.
A constructor carries every field of the row's word, also the ones its rule ignores (R85), so that an
instruction stands for exactly one word. -/

namespace Sys2Proof

/-- The 35 operations of the closed instruction set (00_scope.md R2). A word that selects none of them is
`Unknown` (30_encoding.md R79): the decoder rejects it and the step runs it as a no-op. -/
inductive Instr where
  /-- `00E0` CLS, clear-screen (R233). -/
  | cls
  /-- `00EE` RET, return (R121). -/
  | ret
  /-- `0nnn` SYS nnn, the 35th operation; `nnn` is ignored (R120). -/
  | sys (nnn : Addr)
  /-- `1nnn` JP nnn (R122). -/
  | jp (nnn : Addr)
  /-- `2nnn` CALL nnn (R123). -/
  | call (nnn : Addr)
  /-- `3xkk` SE Vx, kk (R124). -/
  | seImm (x : Reg) (kk : Byte)
  /-- `4xkk` SNE Vx, kk (R125). -/
  | sneImm (x : Reg) (kk : Byte)
  /-- `5xyn` SE Vx, Vy; `n` is ignored (R126, R78). -/
  | seReg (x y : Reg) (n : Nib)
  /-- `6xkk` LD Vx, kk (R140). -/
  | ldImm (x : Reg) (kk : Byte)
  /-- `7xkk` ADD Vx, kk (R141). -/
  | addImm (x : Reg) (kk : Byte)
  /-- `8xy0` LD Vx, Vy (R142). -/
  | ldReg (x y : Reg)
  /-- `8xy1` OR Vx, Vy (R143). -/
  | orReg (x y : Reg)
  /-- `8xy2` AND Vx, Vy (R144). -/
  | andReg (x y : Reg)
  /-- `8xy3` XOR Vx, Vy (R145). -/
  | xorReg (x y : Reg)
  /-- `8xy4` ADD Vx, Vy, with carry (R146). -/
  | addReg (x y : Reg)
  /-- `8xy5` SUB Vx, Vy (R147). -/
  | sub (x y : Reg)
  /-- `8xy6` SHR Vx; `y` is ignored (R148). -/
  | shr (x y : Reg)
  /-- `8xy7` SUBN Vx, Vy (R149). -/
  | subn (x y : Reg)
  /-- `8xyE` SHL Vx; `y` is ignored (R150). -/
  | shl (x y : Reg)
  /-- `9xyn` SNE Vx, Vy; `n` is ignored (R127, R78). -/
  | sneReg (x y : Reg) (n : Nib)
  /-- `Annn` LD I, nnn (R170). -/
  | ldI (nnn : Addr)
  /-- `Bnnn` JP V0, nnn (R128). -/
  | jpV0 (nnn : Addr)
  /-- `Cxkk` RND Vx, kk (R151). -/
  | rnd (x : Reg) (kk : Byte)
  /-- `Dxyn` DRW Vx, Vy, n (R234). -/
  | drw (x y : Reg) (n : Nib)
  /-- `Ex9E` SKP Vx (R210). -/
  | skp (x : Reg)
  /-- `ExA1` SKNP Vx (R211). -/
  | sknp (x : Reg)
  /-- `Fx07` LD Vx, DT (R190). -/
  | ldVxDT (x : Reg)
  /-- `Fx0A` LD Vx, K, blocking (R212). -/
  | ldVxK (x : Reg)
  /-- `Fx15` LD DT, Vx (R191). -/
  | ldDTVx (x : Reg)
  /-- `Fx18` LD ST, Vx (R192). -/
  | ldSTVx (x : Reg)
  /-- `Fx1E` ADD I, Vx (R171). -/
  | addI (x : Reg)
  /-- `Fx29` LD F, Vx (R172). -/
  | ldF (x : Reg)
  /-- `Fx33` LD B, Vx (R173). -/
  | ldB (x : Reg)
  /-- `Fx55` LD [I], Vx (R174). -/
  | ldMemVx (x : Reg)
  /-- `Fx65` LD Vx, [I] (R175). -/
  | ldVxMem (x : Reg)
  deriving DecidableEq, Repr

end Sys2Proof
end

