-- ==== Sys2Proof/Decode.lean ====
section
/-! DEFINITION. The decoder (30_encoding.md R70 to R83), the encoder beside it, and Table E-1 (R80).
The bit patterns are PRESUMED (log 6): the spec takes them from the standard opcode map (D29, G1); only
`00E0` is in its source. -/

namespace Sys2Proof

/-! ### Fields of an instruction word (R71) -/

/-- `op = w[15:12]`, the family. -/
def opOf (w : Word) : Nib := w.extractLsb' 12 4
/-- `x = w[11:8]`, the first register index. -/
def xOf (w : Word) : Reg := w.extractLsb' 8 4
/-- `y = w[7:4]`, the second register index. -/
def yOf (w : Word) : Reg := w.extractLsb' 4 4
/-- `n = w[3:0]`, the sprite height and the sub-selector of family 8. -/
def nOf (w : Word) : Nib := w.extractLsb' 0 4
/-- `kk = w[7:0]`, the 8-bit immediate and the sub-selector of families E and F. -/
def kkOf (w : Word) : Byte := w.extractLsb' 0 8
/-- `nnn = w[11:0]`, the 12-bit address. -/
def nnnOf (w : Word) : Addr := w.extractLsb' 0 12

/-! ### The decoder -/

/-- Why the decoder answers `Unknown` (R79, R81), by name, or finds no whole word. -/
inductive Reject where
  /-- `8xyn` with an `n` that selects nothing (R75). The step runs it as a no-op. -/
  | family8 (n : Nib)
  /-- `Exkk` with a `kk` other than 9E and A1 (R76). The step runs it as a no-op. -/
  | familyE (kk : Byte)
  /-- `Fxkk` with a `kk` that selects nothing (R77). The step runs it as a no-op. -/
  | familyF (kk : Byte)
  /-- Fewer than two bytes: every instruction is exactly two (R70). No fetch gives this. -/
  | truncated
  deriving DecidableEq, Repr

/-- Family 0: `CLS` and `RET` match on all 16 bits, every other word is `SYS` (R74, decision D2, log 7). -/
def decodeFamily0 (w : Word) : Instr :=
  if nnnOf w = 0x0E0#12 then .cls
  else if nnnOf w = 0x0EE#12 then .ret
  else .sys (nnnOf w)

/-- Family 8: the low nibble selects (R75, decision D3, log 8). -/
def decodeFamily8 (w : Word) : Except Reject Instr :=
  if nOf w = 0x0#4 then .ok (.ldReg (xOf w) (yOf w))
  else if nOf w = 0x1#4 then .ok (.orReg (xOf w) (yOf w))
  else if nOf w = 0x2#4 then .ok (.andReg (xOf w) (yOf w))
  else if nOf w = 0x3#4 then .ok (.xorReg (xOf w) (yOf w))
  else if nOf w = 0x4#4 then .ok (.addReg (xOf w) (yOf w))
  else if nOf w = 0x5#4 then .ok (.sub (xOf w) (yOf w))
  else if nOf w = 0x6#4 then .ok (.shr (xOf w) (yOf w))
  else if nOf w = 0x7#4 then .ok (.subn (xOf w) (yOf w))
  else if nOf w = 0xE#4 then .ok (.shl (xOf w) (yOf w))
  else .error (.family8 (nOf w))

/-- Family E: the low byte selects (R76, decision D3, log 8). -/
def decodeFamilyE (w : Word) : Except Reject Instr :=
  if kkOf w = 0x9E#8 then .ok (.skp (xOf w))
  else if kkOf w = 0xA1#8 then .ok (.sknp (xOf w))
  else .error (.familyE (kkOf w))

/-- Family F: the low byte selects (R77, decision D3, log 8). -/
def decodeFamilyF (w : Word) : Except Reject Instr :=
  if kkOf w = 0x07#8 then .ok (.ldVxDT (xOf w))
  else if kkOf w = 0x0A#8 then .ok (.ldVxK (xOf w))
  else if kkOf w = 0x15#8 then .ok (.ldDTVx (xOf w))
  else if kkOf w = 0x18#8 then .ok (.ldSTVx (xOf w))
  else if kkOf w = 0x1E#8 then .ok (.addI (xOf w))
  else if kkOf w = 0x29#8 then .ok (.ldF (xOf w))
  else if kkOf w = 0x33#8 then .ok (.ldB (xOf w))
  else if kkOf w = 0x55#8 then .ok (.ldMemVx (xOf w))
  else if kkOf w = 0x65#8 then .ok (.ldVxMem (xOf w))
  else .error (.familyF (kkOf w))

/-- Decode one word: the top nibble first, then the second level in families 0, 8, E and F (R73). Total on
all 65536 words (R83); `.error` is the spec's `Unknown` (R79). -/
def decodeWord (w : Word) : Except Reject Instr :=
  if opOf w = 0x0#4 then .ok (decodeFamily0 w)
  else if opOf w = 0x1#4 then .ok (.jp (nnnOf w))
  else if opOf w = 0x2#4 then .ok (.call (nnnOf w))
  else if opOf w = 0x3#4 then .ok (.seImm (xOf w) (kkOf w))
  else if opOf w = 0x4#4 then .ok (.sneImm (xOf w) (kkOf w))
  else if opOf w = 0x5#4 then .ok (.seReg (xOf w) (yOf w) (nOf w))
  else if opOf w = 0x6#4 then .ok (.ldImm (xOf w) (kkOf w))
  else if opOf w = 0x7#4 then .ok (.addImm (xOf w) (kkOf w))
  else if opOf w = 0x8#4 then decodeFamily8 w
  else if opOf w = 0x9#4 then .ok (.sneReg (xOf w) (yOf w) (nOf w))
  else if opOf w = 0xA#4 then .ok (.ldI (nnnOf w))
  else if opOf w = 0xB#4 then .ok (.jpV0 (nnnOf w))
  else if opOf w = 0xC#4 then .ok (.rnd (xOf w) (kkOf w))
  else if opOf w = 0xD#4 then .ok (.drw (xOf w) (yOf w) (nOf w))
  else if opOf w = 0xE#4 then decodeFamilyE w
  else decodeFamilyF w

/-- Decode the instruction at the head of a list of bytes, the byte at the lower address first: big-endian
(20_memory.md R54), with the bytes after it. -/
def decode : List Byte → Except Reject (Instr × List Byte)
  | hi :: lo :: rest =>
    match decodeWord (hi ++ lo) with
    | .ok i => .ok (i, rest)
    | .error r => .error r
  | _ => .error .truncated

/-! ### The encoder, from the same table -/

/-- The layout `oooo aaaaaaaaaaaa` (R71). -/
def wordNnn (op : Nib) (nnn : Addr) : Word := op ++ nnn
/-- The layout `oooo xxxx kkkkkkkk` (R71). -/
def wordXkk (op : Nib) (x : Reg) (kk : Byte) : Word := op ++ x ++ kk
/-- The layout `oooo xxxx yyyy nnnn` (R71). -/
def wordXyn (op : Nib) (x y : Reg) (n : Nib) : Word := op ++ x ++ y ++ n

/-- The word of an instruction, by the patterns of Table E-1 (R80). -/
def encode (i : Instr) : Word :=
  match i with
  | .cls => 0x00E0#16
  | .ret => 0x00EE#16
  | .sys nnn => wordNnn 0x0#4 nnn
  | .jp nnn => wordNnn 0x1#4 nnn
  | .call nnn => wordNnn 0x2#4 nnn
  | .seImm x kk => wordXkk 0x3#4 x kk
  | .sneImm x kk => wordXkk 0x4#4 x kk
  | .seReg x y n => wordXyn 0x5#4 x y n
  | .ldImm x kk => wordXkk 0x6#4 x kk
  | .addImm x kk => wordXkk 0x7#4 x kk
  | .ldReg x y => wordXyn 0x8#4 x y 0x0#4
  | .orReg x y => wordXyn 0x8#4 x y 0x1#4
  | .andReg x y => wordXyn 0x8#4 x y 0x2#4
  | .xorReg x y => wordXyn 0x8#4 x y 0x3#4
  | .addReg x y => wordXyn 0x8#4 x y 0x4#4
  | .sub x y => wordXyn 0x8#4 x y 0x5#4
  | .shr x y => wordXyn 0x8#4 x y 0x6#4
  | .subn x y => wordXyn 0x8#4 x y 0x7#4
  | .shl x y => wordXyn 0x8#4 x y 0xE#4
  | .sneReg x y n => wordXyn 0x9#4 x y n
  | .ldI nnn => wordNnn 0xA#4 nnn
  | .jpV0 nnn => wordNnn 0xB#4 nnn
  | .rnd x kk => wordXkk 0xC#4 x kk
  | .drw x y n => wordXyn 0xD#4 x y n
  | .skp x => wordXkk 0xE#4 x 0x9E#8
  | .sknp x => wordXkk 0xE#4 x 0xA1#8
  | .ldVxDT x => wordXkk 0xF#4 x 0x07#8
  | .ldVxK x => wordXkk 0xF#4 x 0x0A#8
  | .ldDTVx x => wordXkk 0xF#4 x 0x15#8
  | .ldSTVx x => wordXkk 0xF#4 x 0x18#8
  | .addI x => wordXkk 0xF#4 x 0x1E#8
  | .ldF x => wordXkk 0xF#4 x 0x29#8
  | .ldB x => wordXkk 0xF#4 x 0x33#8
  | .ldMemVx x => wordXkk 0xF#4 x 0x55#8
  | .ldVxMem x => wordXkk 0xF#4 x 0x65#8

/-- The two bytes of an instruction as memory holds them, the high byte at the lower address (R54, R70). -/
def encodeBytes (i : Instr) : List Byte :=
  [(encode i).extractLsb' 8 8, (encode i).extractLsb' 0 8]

/-! ### Table E-1 as data -/

/-- The masks and match values of Table E-1 (R80), rows 1 to 35 in order. -/
def tableE1 : List (Word × Word) :=
  [(0xFFFF, 0x00E0), (0xFFFF, 0x00EE), (0xF000, 0x0000), (0xF000, 0x1000), (0xF000, 0x2000),
   (0xF000, 0x3000), (0xF000, 0x4000), (0xF000, 0x5000), (0xF000, 0x6000), (0xF000, 0x7000)] ++
  [(0xF00F, 0x8000), (0xF00F, 0x8001), (0xF00F, 0x8002), (0xF00F, 0x8003), (0xF00F, 0x8004),
   (0xF00F, 0x8005), (0xF00F, 0x8006), (0xF00F, 0x8007), (0xF00F, 0x800E)] ++
  [(0xF000, 0x9000), (0xF000, 0xA000), (0xF000, 0xB000), (0xF000, 0xC000), (0xF000, 0xD000),
   (0xF0FF, 0xE09E), (0xF0FF, 0xE0A1)] ++
  [(0xF0FF, 0xF007), (0xF0FF, 0xF00A), (0xF0FF, 0xF015), (0xF0FF, 0xF018), (0xF0FF, 0xF01E),
   (0xF0FF, 0xF029), (0xF0FF, 0xF033), (0xF0FF, 0xF055), (0xF0FF, 0xF065)]

/-- The row of Table E-1 an instruction stands for, counted from 0 (row 1 of the table is 0 here). -/
def Instr.row (i : Instr) : Nat :=
  match i with
  | .cls => 0 | .ret => 1 | .sys _ => 2 | .jp _ => 3 | .call _ => 4
  | .seImm _ _ => 5 | .sneImm _ _ => 6 | .seReg _ _ _ => 7 | .ldImm _ _ => 8 | .addImm _ _ => 9
  | .ldReg _ _ => 10 | .orReg _ _ => 11 | .andReg _ _ => 12 | .xorReg _ _ => 13 | .addReg _ _ => 14
  | .sub _ _ => 15 | .shr _ _ => 16 | .subn _ _ => 17 | .shl _ _ => 18 | .sneReg _ _ _ => 19
  | .ldI _ => 20 | .jpV0 _ => 21 | .rnd _ _ => 22 | .drw _ _ _ => 23 | .skp _ => 24 | .sknp _ => 25
  | .ldVxDT _ => 26 | .ldVxK _ => 27 | .ldDTVx _ => 28 | .ldSTVx _ => 29 | .addI _ => 30
  | .ldF _ => 31 | .ldB _ => 32 | .ldMemVx _ => 33 | .ldVxMem _ => 34

/-- "A word selects the first row, from the top, whose `(w AND mask) = match`" (R80): that row, counted
from 0, or `none` for an `Unknown` word. -/
def rowOf (w : Word) : Option Nat := tableE1.findIdx? fun e => (w &&& e.1) == e.2

/-! ### The opcode table's numbering -/

/-- What the decoder reads from an instruction of the opcode table: the word's low `nbits` bits are those of
`w`, the rest 0, laid out in memory order (R54) and given to `decode`. -/
def decodeTableWord (nbits w : Nat) : Option Instr :=
  let word : Word := BitVec.ofNat 16 (w % 2 ^ nbits)
  match decode [word.extractLsb' 8 8, word.extractLsb' 0 8] with
  | .ok (i, _) => some i
  | .error _ => none

end Sys2Proof
end

