-- ==== Sys2Proof/Config.lean ====
section
/-! DEFINITION. What is fixed for this hardware (00_scope.md R7) and the one free value. -/

namespace Sys2Proof.Config

/-- Bytes of memory, addresses 0x000..0xFFF (R7, 20_memory.md R50). -/
abbrev memSize : Nat := 4096

/-- Entries of the call stack (R7). -/
abbrev stackDepth : Nat := 16

/-- First address of the font table (R7). -/
abbrev fontBase : Nat := 0x050

/-- Size of the font table: 16 glyphs of 5 bytes (R7). -/
abbrev fontSize : Nat := 80

/-- Bytes of one glyph (R7 `FONT_GLYPH`). -/
abbrev glyphSize : Nat := 5

/-- Where the program image goes, and `pc` after reset (R7 `PROG_BASE`, `RESET_PC`). -/
abbrev progBase : Nat := 0x200

/-- The longest image the loader accepts (R7 `PROG_MAX`, conflict C2). -/
abbrev progMax : Nat := 3584

/-- The step input `rand8` of the `k`-th `RND` drawn (40_cycle_driver.md R100: "a free draw under no law").
FREE VALUE (log 1): no body, so nothing can be proved of any of its values. Safe. -/
opaque rand8 : Nat → Byte

end Sys2Proof.Config
end

