-- ==== Sys2Proof/Machine/State.lean ====
section
/-! DEFINITION. The machine's state: the record of 10_state.md R20 under the spec's own names, the model's
three fields for a step's input and outputs, and the state after reset. -/

namespace Sys2Proof.Machine

/-- The contents of the fault status register `FAULT` (10_state.md R31; codes of 60_exceptions.md R261). -/
inductive Cause where
  /-- Code 0: no fault. -/
  | none
  /-- Code 1: `CALL` with 16 entries pushed. -/
  | stackOverflow
  /-- Code 2: `RET` with no entry pushed. -/
  | stackUnderflow
  /-- Code 3: fetch with `pc > 0xFFE`. -/
  | fetchOutOfRange
  /-- Code 4: fetch with an odd `pc`. -/
  | fetchMisaligned
  /-- Code 5: a data access at an address of 4096 or more. -/
  | dataOutOfRange
  /-- Code 6: a store into the font table. -/
  | fontWrite
  /-- Code 7: `SKP` or `SKNP` with `V[x] ≥ 16`. -/
  | keyIndexOutOfRange
  deriving DecidableEq, Repr

/-- A pixel has exactly two values (10_state.md R29; 46_display.md R231). -/
inductive Pixel where
  /-- All zero bits at the port. -/
  | off
  /-- All one bits at the port. -/
  | on
  deriving DecidableEq, Repr

/-- 32 rows of 64 pixels: `FB(c, r)` is column `c` of row `r` (46_display.md R230). -/
abbrev Framebuffer := Vector (Vector Pixel 64) 32

/-- Memory as the list of the bytes that differ from what an unlisted address reads as (log 27). -/
abbrev Memory := List Host.Cell

/-- The machine. The first twelve fields are the record of 10_state.md R20; the last three are the model's
own: the input and the outputs of a step (40_cycle_driver.md R100, R108). -/
structure State where
  /-- The general registers `V0`..`VF` (R21). -/
  V : Vector Byte 16
  /-- Memory (20_memory.md R50). -/
  M : Memory
  /-- The index register (R24). -/
  I : Word
  /-- The program counter: within a step, the address of the instruction being executed (R25). -/
  pc : Word
  /-- The call stack, `S[0]` oldest (R26). -/
  S : Vector Word 16
  /-- How many entries are pushed, 0..16 (R26). -/
  SP : Fin 17
  /-- The delay timer (R27). -/
  DT : Byte
  /-- The sound timer (R27). -/
  ST : Byte
  /-- The keypad; `true` is pressed (R28). -/
  K : Vector Bool 16
  /-- The framebuffer (R29). -/
  FB : Framebuffer
  /-- The word fetched last (R30). -/
  IR : Word
  /-- The sticky fault status (R31). -/
  FAULT : Cause
  /-- MODEL'S OWN (log 1): how many random bytes have been drawn; selects the free value of the next one. No reset
  takes it back. -/
  draws : Nat
  /-- MODEL'S OWN (log 2): the `unknown` output of the last step (R108). -/
  unknown : Bool
  /-- MODEL'S OWN (log 2): the `sound_expired` output of the last step (R108). -/
  soundExpired : Bool
  deriving DecidableEq, Repr

/-- Conditions that would stop the model outside the spec's own fault state. There are none: every condition
the spec reports is an effect it describes (`FAULT` is written and the core stays in that state, 40_cycle_driver.md
R101, R109), so it is a next state (log 19). No step and no meaning raises a fault. -/
inductive Fault where
  deriving DecidableEq, Repr

/-- Instructions the model gives no meaning to. -/
inductive Refusal where
  /-- Raised by an arm of `exec` whose instruction has no meaning yet. No arm raises it: all 35 have one.
  Safe where raised. -/
  | notModelled (mnemonic : String)
  deriving DecidableEq, Repr

/-- The state after reset (10_state.md R34; 70_reset_and_hazards.md R290). The font bytes are what an unlisted
address reads as, so memory lists nothing. The zeros are the spec's own choice D19 (DESIGN CHOICE, log 3,
unsafe); `draws` and the two outputs are the model's (log 1, log 2). -/
def State.reset : State where
  V := Vector.replicate 16 0#8
  M := []
  I := 0#16
  pc := BitVec.ofNat 16 Config.progBase
  S := Vector.replicate 16 0#16
  SP := 0
  DT := 0#8
  ST := 0#8
  K := Vector.replicate 16 false
  FB := Vector.replicate 32 (Vector.replicate 64 .off)
  IR := 0#16
  FAULT := .none
  draws := 0
  unknown := false
  soundExpired := false

end Sys2Proof.Machine
end

