-- ==== Sys2Proof/Machine/Ops.lean ====
section
/-! DEFINITION. The named operations over memory, registers, stack, keypad and framebuffer; the advance
policy; and taking a fault. Everything an instruction does goes through these. -/

namespace Sys2Proof.Machine

/-! ### Memory (20_memory.md) -/

/-- The 80 bytes of the font table, glyphs 0..F (10_state.md R34 `FONT_BYTES`). PRESUMED (log 4): the spec
takes the bytes from general knowledge; it fixes their place, size and order. -/
def fontBytes : List Byte :=
  [0xF0, 0x90, 0x90, 0x90, 0xF0,  0x20, 0x60, 0x20, 0x20, 0x70,
   0xF0, 0x10, 0xF0, 0x80, 0xF0,  0xF0, 0x10, 0xF0, 0x10, 0xF0] ++
  [0x90, 0x90, 0xF0, 0x10, 0x10,  0xF0, 0x80, 0xF0, 0x10, 0xF0,
   0xF0, 0x80, 0xF0, 0x90, 0xF0,  0xF0, 0x10, 0x20, 0x40, 0x40] ++
  [0xF0, 0x90, 0xF0, 0x90, 0xF0,  0xF0, 0x90, 0xF0, 0x10, 0xF0,
   0xF0, 0x90, 0xF0, 0x90, 0x90,  0xE0, 0x90, 0xE0, 0x90, 0xE0] ++
  [0xF0, 0x80, 0x80, 0x80, 0xF0,  0xE0, 0x90, 0x90, 0x90, 0xE0,
   0xF0, 0x80, 0xF0, 0x80, 0xF0,  0xF0, 0x80, 0xF0, 0x80, 0x80]

/-- `a` lies in the font table, 0x050..0x09F (R51). -/
abbrev inFont (a : Nat) : Prop := Config.fontBase ≤ a ∧ a < Config.fontBase + Config.fontSize

/-- The block of `n` addresses from `a` on meets the font table (43_index_memory.md R173, R174). -/
abbrev meetsFont (a n : Nat) : Prop := ∃ k < n, inFont (a + k)

/-- What an address that memory does not list reads as: its reset contents (20_memory.md R60), the font byte
in the font table and 0 elsewhere (10_state.md R34; D19; log 3, log 4, log 27). -/
def unlisted (a : Nat) : Byte :=
  if inFont a then fontBytes.getD (a - Config.fontBase) 0 else 0

/-- The canonical form of memory: addresses strictly rising, inside memory, and no byte listed that an
unlisted address would read as. -/
abbrev Memory.wf (m : Memory) : Prop :=
  m.Pairwise (fun c d => c.1 < d.1) ∧ ∀ c ∈ m, c.1 < Config.memSize ∧ c.2 ≠ unlisted c.1

/-- The byte at an address. -/
def Memory.read : Memory → Nat → Byte
  | [], a => unlisted a
  | (k, v) :: m, a => if k = a then v else Memory.read m a

/-- Put a byte at an address, keeping the canonical form. -/
def Memory.write : Memory → Nat → Byte → Memory
  | [], a, b => if b = unlisted a then [] else [(a, b)]
  | (k, v) :: m, a, b =>
    if a < k then if b = unlisted a then (k, v) :: m else (a, b) :: (k, v) :: m
    else if a = k then if b = unlisted a then m else (a, b) :: m
    else (k, v) :: Memory.write m a b

/-- Put a list of bytes at rising addresses. -/
def Memory.writeAll : Memory → Nat → List Byte → Memory
  | m, _, [] => m
  | m, a, b :: bs => Memory.writeAll (m.write a b) (a + 1) bs

/-- `M <- m`. -/
def State.setM (s : State) (m : Memory) : State := { s with M := m }

/-- `MemRead(a, 1)` (R52; decision D8, log 12). -/
def State.memRead (s : State) (a : Nat) : Except Cause Byte :=
  if Config.memSize ≤ a then .error .dataOutOfRange else .ok (s.M.read a)

/-- `MemWrite(a, 1, v)`: the range check comes before the font check (R53; decisions D8, D11, log 12, log 14). -/
def State.memWrite (s : State) (a : Nat) (v : Byte) : Except Cause State :=
  if Config.memSize ≤ a then .error .dataOutOfRange
  else if inFont a then .error .fontWrite
  else .ok (s.setM (s.M.write a v))

/-- `FetchWord(p) = M[p] ++ M[p+1]`, big-endian (R54). -/
def State.fetchWord (s : State) (p : Nat) : Word := s.M.read p ++ s.M.read (p + 1)

/-- The check an instruction makes before it reads the `n` bytes at `a`: "if n > 0 and a + n − 1 > 0xFFF"
(43_index_memory.md R175, 46_display.md R234). -/
def loadCheck (a n : Nat) : Except Cause Unit :=
  if 0 < n ∧ 0xFFF < a + n - 1 then .error .dataOutOfRange else .ok ()

/-- The checks an instruction makes before it writes the `n` bytes at `a`: range first, then the font
(43_index_memory.md R173, R174). -/
def storeCheck (a n : Nat) : Except Cause Unit :=
  if 0xFFF < a + n - 1 then .error .dataOutOfRange
  else if meetsFont a n then .error .fontWrite
  else .ok ()

/-- `MemRead` at `a`, `a + 1`, ..., in that order (R57). -/
def State.readList (s : State) (a : Nat) : Nat → Except Cause (List Byte)
  | 0 => .ok []
  | n + 1 => do
    let b ← s.memRead a
    let bs ← s.readList (a + 1) n
    return b :: bs

/-- `MemWrite` at `a`, `a + 1`, ..., in that order (R57). -/
def State.writeList (s : State) (a : Nat) : List Byte → Except Cause State
  | [] => .ok s
  | b :: bs => do
    let t ← s.memWrite a b
    t.writeList (a + 1) bs

/-- Read a block: every address is checked before the first read (R59). -/
def State.loadBytes (s : State) (a n : Nat) : Except Cause (List Byte) := do
  loadCheck a n
  s.readList a n

/-- Write a block, all or nothing: every address is checked before the first write (R59, decision D9). -/
def State.storeBytes (s : State) (a : Nat) (bs : List Byte) : Except Cause State := do
  storeCheck a bs.length
  s.writeList a bs

/-! ### General registers (10_state.md R21) -/

/-- `V[x]`. -/
def State.v (s : State) (x : Reg) : Byte := s.V[x.toNat]'x.isLt

/-- `V[x] <- b`. -/
def State.setV (s : State) (x : Reg) (b : Byte) : State := { s with V := s.V.set x.toNat b x.isLt }

/-- `V[0..x]` as a list, `V[0]` first: the registers of `LD [I], Vx` (R174). -/
def State.vUpTo (s : State) (x : Reg) : List Byte := s.V.toList.take (x.toNat + 1)

/-- `V[i] <- bs[i]` for every `i` that `bs` has: the registers of `LD Vx, [I]` (R175). -/
def State.setVs (s : State) (bs : List Byte) : State :=
  { s with V := Vector.ofFn fun k => bs.getD k.val (s.V[k.val]'k.isLt) }

/-! ### Index register, timers (10_state.md R24, R27) -/

/-- `I <- w`. -/
def State.setI (s : State) (w : Word) : State := { s with I := w }

/-- `DT <- b`. -/
def State.setDT (s : State) (b : Byte) : State := { s with DT := b }

/-- `ST <- b`. -/
def State.setST (s : State) (b : Byte) : State := { s with ST := b }

/-! ### Call stack (10_state.md R26) -/

/-- The stack and its pointer, written together. -/
def State.setStack (s : State) (slots : Vector Word 16) (sp : Fin 17) : State := { s with S := slots, SP := sp }

/-- Push: `S[SP] <- w`, then `SP <- SP + 1`; with 16 entries pushed, `STACK_OVERFLOW` (D7, log 11). -/
def State.push (s : State) (w : Word) : Except Cause State :=
  if h : s.SP.val < Config.stackDepth then
    .ok (s.setStack (s.S.set s.SP.val w h) ⟨s.SP.val + 1, Nat.succ_lt_succ h⟩)
  else .error .stackOverflow

/-- Pop: `SP <- SP − 1`, then read `S[SP]`; the slot is not cleared. With no entry, `STACK_UNDERFLOW`
(D7, log 11). -/
def State.pop (s : State) : Except Cause (State × Word) :=
  if h : s.SP.val = 0 then .error .stackUnderflow
  else .ok (s.setStack s.S ⟨s.SP.val - 1, by omega⟩, s.S[s.SP.val - 1]'(by omega))

/-! ### Keypad (45_input.md) -/

/-- `K[k]` for a key index held in a register; an index above 15 raises `KEY_INDEX_OUT_OF_RANGE`
(R210, R211; decision D12, log 15). -/
def State.key (s : State) (k : Byte) : Except Cause Bool :=
  if h : k.toNat < 16 then .ok (s.K[k.toNat]'h) else .error .keyIndexOutOfRange

/-- The highest pressed index below `n`, if any. -/
def scanKeys (keys : Vector Bool 16) : Nat → Option Nat
  | 0 => none
  | n + 1 => if keys[n]?.getD false then some n else scanKeys keys n

/-- `max { k | K[k] }`: "the highest index observed wins" (R212). -/
def State.highestKey (s : State) : Option Nat := scanKeys s.K 16

/-! ### Framebuffer (46_display.md) -/

/-- The `toggle` transition with its collision output (R231). -/
def Pixel.toggle : Pixel → Pixel × Bool
  | .off => (.on, false)
  | .on => (.off, true)

/-- A pixel as the 32-bit word of the framebuffer port (R231, R232). -/
def Pixel.word : Pixel → BitVec 32
  | .off => 0x00000000#32
  | .on => 0xFFFFFFFF#32

/-- The pixel at column `c`, row `r` (R230). -/
def Framebuffer.pixel (fb : Framebuffer) (c : Fin 64) (r : Fin 32) : Pixel := fb[r.val][c.val]

/-- Write the pixel at column `c`, row `r`. -/
def Framebuffer.setPixel (fb : Framebuffer) (c : Fin 64) (r : Fin 32) (p : Pixel) : Framebuffer :=
  fb.set r.val (fb[r.val].set c.val p)

/-- Every pixel `Off`: the `clear` transition (R231, R233). -/
def Framebuffer.blank : Framebuffer := Vector.replicate 32 (Vector.replicate 64 .off)

/-- `FB <- fb`. -/
def State.setFB (s : State) (fb : Framebuffer) : State := { s with FB := fb }

/-! ### The random byte (40_cycle_driver.md R100) -/

/-- How many bytes have been drawn, written. -/
def State.setDraws (s : State) (k : Nat) : State := { s with draws := k }

/-- The step's `rand8`, a free value (log 1), and the state in which the next draw takes another one
("Two `RND` steps draw independently", 42_register_alu.md R151). -/
def State.drawRandom (s : State) : Byte × State := (Config.rand8 s.draws, s.setDraws (s.draws + 1))

/-! ### Handler results and the advance policy (40_cycle_driver.md R105, R106) -/

/-- The result of a handler that does not fault (R105). -/
inductive Flow where
  /-- Sequential: `pc + 2`. -/
  | advance
  /-- "Advance by an extra 2": `pc + 4`. -/
  | skip
  /-- `pc <- t`, no advance. -/
  | jump (t : Word)
  /-- The same instruction again. -/
  | retry
  deriving DecidableEq, Repr

/-- The next `pc`, from the address of the executed instruction (R106). -/
def Flow.next (f : Flow) (pc : Word) : Word :=
  match f with
  | .advance => pc + 2#16
  | .skip => pc + 4#16
  | .jump t => t
  | .retry => pc

/-- What a handler computes: its writes and its result, or the fault it raises (R103, R105). -/
abbrev Handled := Except Cause (State × Flow)

/-- TAKING A FAULT (R109, decisions D16 and D30, log 19): `FAULT <- c` and nothing else. The writes of the
faulting handler are dropped, `pc` still holds the instruction's address, and nothing is saved or vectored
(60_exceptions.md R266). -/
def State.raise (s : State) (c : Cause) : State := { s with FAULT := c }

/-- THE RETURN FROM A FAULT: there is no instruction for it, only reset leaves the fault state
(60_exceptions.md R267). The host's reset puts every field of the record of 10_state.md R20 at its reset value
(70_reset_and_hazards.md R290). `draws` is no field of that record and goes on counting: the host supplies a byte with
each step, before a reset and after it, and no draw repeats an earlier one (R294, 42_register_alu.md R151; log 1). -/
def State.hostReset (s : State) : State := { State.reset with draws := s.draws }

/-- `pc <- w`: done by the Cycle Driver alone (10_state.md R25). -/
def State.setPc (s : State) (w : Word) : State := { s with pc := w }

/-- Apply a handler's outcome to the state it started from (R104, R106, R109): its writes and the next `pc`,
or the fault. -/
def State.finish (s : State) (h : Handled) : Host.Outcome State Fault Refusal :=
  match h with
  | .ok (t, f) => .next (t.setPc (f.next s.pc))
  | .error c => .next (s.raise c)

/-! ### The parts of a step around the handler (40_cycle_driver.md R102, R107, R108) -/

/-- Fetch: range first, then alignment, then the word (R102; decision D10, log 13). -/
def State.fetch (s : State) : Except Cause Word :=
  if 0xFFE < s.pc.toNat then .error .fetchOutOfRange
  else if s.pc.toNat % 2 = 1 then .error .fetchMisaligned
  else .ok (s.fetchWord s.pc.toNat)

/-- The two outputs of a step that are not `FAULT` (R108). -/
def State.setOutputs (s : State) (unknown soundExpired : Bool) : State :=
  { s with unknown := unknown, soundExpired := soundExpired }

/-- The state the handler reads: `IR` holds the fetched word (R102, R111), and the outputs are those of a step
that has decoded `w` but not ticked. -/
def State.begin (s : State) (w : Word) (isUnknown : Bool) : State :=
  { s with IR := w, unknown := isUnknown, soundExpired := false }

/-- One timer's countdown: down by one while non-zero, clamped at 0 (44_timers.md R193, R194). -/
def countdown (t : Byte) : Byte := if t = 0#8 then 0#8 else t - 1#8

/-- The tick of both timers and the expiry signal (R107, R193, R194; decision D21, log 20). -/
def State.tick (s : State) : State :=
  { s with DT := countdown s.DT, ST := countdown s.ST, soundExpired := s.ST == 1#8 }

/-- The end of a step: the timers tick unless the handler faulted (R107, R109). -/
def State.endStep (s : State) : State := if s.FAULT = .none then s.tick else s

/-- Store the word of an instruction as memory holds it, high byte first (20_memory.md R54), without the
checks of `MemWrite`: the loader is not subject to them (70_reset_and_hazards.md R291). -/
def State.placeWord (s : State) (p : Nat) (w : Word) : State :=
  s.setM (s.M.writeAll p [w.extractLsb' 8 8, w.extractLsb' 0 8])

end Sys2Proof.Machine
end

