-- ==== Sys2Proof/Machine/Operands.lean ====
section
/-! DEFINITION. The operand forms of 30_encoding.md R72: register, 8-bit immediate, 12-bit address, 4-bit count,
and index plus offset (43_index_memory.md R176). The first two need no assembly (`State.v` and the field). -/

namespace Sys2Proof.Machine

/-- `zext_16(nnn)`: a 12-bit address as a `pc` or `I` value (R72). -/
def addrOperand (nnn : Addr) : Word := nnn.setWidth 16

/-- `zext_16(V[x])`: a register as a term of a 16-bit sum (R128, R171). -/
def State.wideOperand (s : State) (x : Reg) : Word := (s.v x).setWidth 16

/-- `n`, an unsigned count 0..15 (R72). -/
def countOperand (n : Nib) : Nat := n.toNat

/-- How many registers a block move with field `x` moves: `0..x` inclusive (R174, R175). -/
def blockCount (x : Reg) : Nat := x.toNat + 1

/-- The base of the only data addressing mode, `I + k`: an unbounded integer, never wrapped (20_memory.md R58,
43_index_memory.md R176; decision D8, log 12). -/
def State.indexAddr (s : State) : Nat := s.I.toNat

/-- `FONT_BASE + 5 × V[x]`, not masked (R172, log 24). -/
def State.glyphAddr (s : State) (x : Reg) : Word :=
  BitVec.ofNat 16 (Config.fontBase + Config.glyphSize * (s.v x).toNat)

/-- The three decimal digits of a byte, hundreds first (R173). -/
def bcdDigits (v : Byte) : List Byte :=
  [BitVec.ofNat 8 (v.toNat / 100), BitVec.ofNat 8 (v.toNat / 10 % 10), BitVec.ofNat 8 (v.toNat % 10)]

/-- The drawing origin: `V[x] mod 64` (R234). -/
def State.originX (s : State) (x : Reg) : Nat := (s.v x).toNat % 64

/-- The drawing origin: `V[y] mod 32` (R234). -/
def State.originY (s : State) (y : Reg) : Nat := (s.v y).toNat % 32

end Sys2Proof.Machine
end

