-- ==== Sys2Proof/Machine/Control.lean ====
section
/-! DEFINITION. Control flow and the call stack (41_control_flow.md): SYS, RET, JP, CALL, the skips, JP V0. -/

namespace Sys2Proof.Machine

/-- `Skip` when the condition holds, else `Advance` (40_cycle_driver.md R105). -/
def skipIf (c : Bool) : Flow := if c then .skip else .advance

/-- SYS nnn: no writes, `Advance`; `nnn` is ignored (R120; decision D2, log 7). -/
def execSys (_nnn : Addr) (s : State) : Host.Outcome State Fault Refusal :=
  s.finish (.ok (s, .advance))

/-- RET: pop, and resume 2 past the popped address (R121; conflict C3, log 29). -/
def execRet (s : State) : Host.Outcome State Fault Refusal :=
  s.finish do
    let (t, a) ← s.pop
    return (t, .jump (a + 2#16))

/-- JP nnn (R122). -/
def execJp (nnn : Addr) (s : State) : Host.Outcome State Fault Refusal :=
  s.finish (.ok (s, .jump (addrOperand nnn)))

/-- CALL nnn: push the address of this CALL, jump (R123). -/
def execCall (nnn : Addr) (s : State) : Host.Outcome State Fault Refusal :=
  s.finish do
    let t ← s.push s.pc
    return (t, .jump (addrOperand nnn))

/-- SE Vx, kk (R124). -/
def execSeImm (x : Reg) (kk : Byte) (s : State) : Host.Outcome State Fault Refusal :=
  s.finish (.ok (s, skipIf (s.v x == kk)))

/-- SNE Vx, kk (R125). -/
def execSneImm (x : Reg) (kk : Byte) (s : State) : Host.Outcome State Fault Refusal :=
  s.finish (.ok (s, skipIf (s.v x != kk)))

/-- SE Vx, Vy; `n` is ignored (R126, 30_encoding.md R78). -/
def execSeReg (x y : Reg) (_n : Nib) (s : State) : Host.Outcome State Fault Refusal :=
  s.finish (.ok (s, skipIf (s.v x == s.v y)))

/-- SNE Vx, Vy; `n` is ignored (R127, 30_encoding.md R78). -/
def execSneReg (x y : Reg) (_n : Nib) (s : State) : Host.Outcome State Fault Refusal :=
  s.finish (.ok (s, skipIf (s.v x != s.v y)))

/-- JP V0, nnn: the sum is kept in 16 bits, not truncated to 12 (R128; decision D24, log 22). -/
def execJpV0 (nnn : Addr) (s : State) : Host.Outcome State Fault Refusal :=
  s.finish (.ok (s, .jump (s.wideOperand 0x0#4 + addrOperand nnn)))

/-- The handler of a word that selects no operation: no writes, `Advance` (30_encoding.md R79). -/
def execUnknown (s : State) : Host.Outcome State Fault Refusal :=
  s.finish (.ok (s, .advance))

end Sys2Proof.Machine
end

