-- ==== Sys2Proof/Machine/Flags.lean ====
section
/-! DEFINITION. The flag computations. `VF` is the only flag (10_state.md R23): a flag write stores 0 or 1
(R22). Each takes the operands' values from before the instruction (40_cycle_driver.md R111). -/

namespace Sys2Proof.Machine

/-- A flag as the byte written to `VF` (R22). -/
def flagByte (b : Bool) : Byte := if b then 1#8 else 0#8

/-- Carry: "VF=1 if sum>255" on the 9-bit sum (42_register_alu.md R146). -/
def carryOf (a b : Byte) : Bool := decide (255 < a.toNat + b.toNat)

/-- Not-borrow, strict: 1 if the minuend is greater than the subtrahend, 0 when equal (R147, R149, R152;
log 24). -/
def notBorrowOf (a b : Byte) : Bool := decide (b.toNat < a.toNat)

/-- The bit a right shift by one moves out (R148). -/
def lowBitOf (a : Byte) : Bool := a.getLsbD 0

/-- The bit a left shift by one moves out (R150). -/
def highBitOf (a : Byte) : Bool := a.getLsbD 7

/-- The order of the two writes of a flag-setting operation: the flag to `VF`, then the result to `V[x]`,
which wins when `x = 15` (40_cycle_driver.md R111; decision D4, log 5). -/
def State.setFlagThenV (s : State) (flag : Bool) (x : Reg) (b : Byte) : State :=
  (s.setV VF (flagByte flag)).setV x b

end Sys2Proof.Machine
end

