-- ==== Sys2Proof/Machine/Display.lean ====
section
/-! DEFINITION. The framebuffer instructions CLS and DRW (46_display.md). -/

namespace Sys2Proof.Machine

/-- Draw bit `7 − j` of the sprite byte `b` at column `ox + j` of row `r`: a zero bit does nothing, a cell
beyond the grid is clipped, and a drawn cell is toggled and remembered if it was `On` (R234; bit order R235,
PRESUMED, log 17; clipping R236, decision D13, log 16). -/
def drawBit (ox r : Nat) (b : Byte) (acc : Framebuffer × Bool) (j : Nat) : Framebuffer × Bool :=
  if b.getLsbD (7 - j) then
    if h : ox + j < 64 ∧ r < 32 then
      let cell := (acc.1.pixel ⟨ox + j, h.1⟩ ⟨r, h.2⟩).toggle
      (acc.1.setPixel ⟨ox + j, h.1⟩ ⟨r, h.2⟩ cell.1, acc.2 || cell.2)
    else acc
  else acc

/-- One sprite row: columns 0 to 7 from the origin (R234). -/
def drawRow (ox r : Nat) (b : Byte) (acc : Framebuffer × Bool) : Framebuffer × Bool :=
  (List.range 8).foldl (drawBit ox r b) acc

/-- The sprite's rows downwards from row `r` (R234, R235). -/
def drawRows (ox : Nat) : Nat → List Byte → Framebuffer × Bool → Framebuffer × Bool
  | _, [], acc => acc
  | r, b :: bs, acc => drawRows ox (r + 1) bs (drawRow ox r b acc)

/-- CLS: every pixel `Off`, `VF` unchanged (R233). -/
def execCls (s : State) : Host.Outcome State Fault Refusal :=
  s.finish (.ok (s.setFB Framebuffer.blank, .advance))

/-- DRW Vx, Vy, n: toggle the sprite's cells, `VF <- hit`; the origin is read before `VF` is written (R234;
decisions D4, D8). -/
def execDrw (x y : Reg) (n : Nib) (s : State) : Host.Outcome State Fault Refusal :=
  s.finish do
    let rows ← s.loadBytes s.indexAddr (countOperand n)
    let drawn := drawRows (s.originX x) (s.originY y) rows (s.FB, false)
    return ((s.setFB drawn.1).setV VF (flagByte drawn.2), .advance)

end Sys2Proof.Machine
end

