-- ==== Sys2Proof/Machine/IndexMemory.lean ====
section
/-! DEFINITION. The index register and the moves between registers and memory through it
(43_index_memory.md). All advance when they do not fault; none changes `I` as a side effect (R176). -/

namespace Sys2Proof.Machine

/-- LD I, nnn (R170). -/
def execLdI (nnn : Addr) (s : State) : Host.Outcome State Fault Refusal :=
  s.finish (.ok (s.setI (addrOperand nnn), .advance))

/-- ADD I, Vx: 16-bit wrap, no flag (R171; decision D24, log 22). -/
def execAddI (x : Reg) (s : State) : Host.Outcome State Fault Refusal :=
  s.finish (.ok (s.setI (s.I + s.wideOperand x), .advance))

/-- LD F, Vx: the address of the glyph (R172). -/
def execLdF (x : Reg) (s : State) : Host.Outcome State Fault Refusal :=
  s.finish (.ok (s.setI (s.glyphAddr x), .advance))

/-- LD B, Vx: the decimal digits of `V[x]` to `M[I..I+2]` (R173; decisions D8, D11). -/
def execLdB (x : Reg) (s : State) : Host.Outcome State Fault Refusal :=
  s.finish do
    let t ← s.storeBytes s.indexAddr (bcdDigits (s.v x))
    return (t, .advance)

/-- LD [I], Vx: `V[0..x]` to `M[I..I+x]` (R174; decisions D6, D8, D11). -/
def execLdMemVx (x : Reg) (s : State) : Host.Outcome State Fault Refusal :=
  s.finish do
    let t ← s.storeBytes s.indexAddr (s.vUpTo x)
    return (t, .advance)

/-- LD Vx, [I]: `M[I..I+x]` to `V[0..x]` (R175; decisions D6, D8). -/
def execLdVxMem (x : Reg) (s : State) : Host.Outcome State Fault Refusal :=
  s.finish do
    let bs ← s.loadBytes s.indexAddr (blockCount x)
    return (s.setVs bs, .advance)

end Sys2Proof.Machine
end

