-- ==== Sys2Proof/Machine/Input.lean ====
section
/-! DEFINITION. The three instructions that read the keypad (45_input.md). -/

namespace Sys2Proof.Machine

/-- SKP Vx: skip if key `V[x]` is pressed; an index above 15 faults (R210; decision D12, log 15). -/
def execSkp (x : Reg) (s : State) : Host.Outcome State Fault Refusal :=
  s.finish do
    let down ← s.key (s.v x)
    return (s, skipIf down)

/-- SKNP Vx: skip if key `V[x]` is not pressed; an index above 15 faults (R211; decision D12, log 15). -/
def execSknp (x : Reg) (s : State) : Host.Outcome State Fault Refusal :=
  s.finish do
    let down ← s.key (s.v x)
    return (s, skipIf (!down))

/-- LD Vx, K: the highest pressed key, or `Retry` when none is pressed (R212). -/
def execLdVxK (x : Reg) (s : State) : Host.Outcome State Fault Refusal :=
  s.finish (.ok (match s.highestKey with
    | some k => (s.setV x (BitVec.ofNat 8 k), .advance)
    | none => (s, .retry)))

end Sys2Proof.Machine
end

