-- ==== Sys2Proof/Machine/Register.lean ====
section
/-! DEFINITION. Register loads, ALU and random (42_register_alu.md). All advance; arithmetic is 8-bit unsigned
and wraps (R152); operands are read before any write (40_cycle_driver.md R111). -/

namespace Sys2Proof.Machine

/-- LD Vx, kk (R140). -/
def execLdImm (x : Reg) (kk : Byte) (s : State) : Host.Outcome State Fault Refusal :=
  s.finish (.ok (s.setV x kk, .advance))

/-- ADD Vx, kk: no flag (R141). -/
def execAddImm (x : Reg) (kk : Byte) (s : State) : Host.Outcome State Fault Refusal :=
  s.finish (.ok (s.setV x (s.v x + kk), .advance))

/-- LD Vx, Vy (R142). -/
def execLdReg (x y : Reg) (s : State) : Host.Outcome State Fault Refusal :=
  s.finish (.ok (s.setV x (s.v y), .advance))

/-- OR Vx, Vy: `VF` is not written as a flag (R143; decision D5, log 9). -/
def execOrReg (x y : Reg) (s : State) : Host.Outcome State Fault Refusal :=
  s.finish (.ok (s.setV x (s.v x ||| s.v y), .advance))

/-- AND Vx, Vy (R144; decision D5, log 9). -/
def execAndReg (x y : Reg) (s : State) : Host.Outcome State Fault Refusal :=
  s.finish (.ok (s.setV x (s.v x &&& s.v y), .advance))

/-- XOR Vx, Vy (R145; decision D5, log 9). -/
def execXorReg (x y : Reg) (s : State) : Host.Outcome State Fault Refusal :=
  s.finish (.ok (s.setV x (s.v x ^^^ s.v y), .advance))

/-- ADD Vx, Vy: carry to `VF`, then the sum mod 256 to `V[x]` (R146; decision D4, log 5). -/
def execAddReg (x y : Reg) (s : State) : Host.Outcome State Fault Refusal :=
  s.finish (.ok (s.setFlagThenV (carryOf (s.v x) (s.v y)) x (s.v x + s.v y), .advance))

/-- SUB Vx, Vy: strict not-borrow to `VF`, then the difference mod 256 to `V[x]` (R147; decision D4, log 5). -/
def execSub (x y : Reg) (s : State) : Host.Outcome State Fault Refusal :=
  s.finish (.ok (s.setFlagThenV (notBorrowOf (s.v x) (s.v y)) x (s.v x - s.v y), .advance))

/-- SHR Vx: bit 0 to `VF`, then `V[x] >> 1`; `y` is ignored (R148; decision D4, log 5). -/
def execShr (x _y : Reg) (s : State) : Host.Outcome State Fault Refusal :=
  s.finish (.ok (s.setFlagThenV (lowBitOf (s.v x)) x (s.v x >>> 1), .advance))

/-- SUBN Vx, Vy: strict not-borrow of `V[y] − V[x]` to `VF`, then the difference to `V[x]` (R149; decision D4,
log 5). -/
def execSubn (x y : Reg) (s : State) : Host.Outcome State Fault Refusal :=
  s.finish (.ok (s.setFlagThenV (notBorrowOf (s.v y) (s.v x)) x (s.v y - s.v x), .advance))

/-- SHL Vx: bit 7 to `VF`, then `V[x] << 1` mod 256; `y` is ignored (R150; decision D4, log 5). -/
def execShl (x _y : Reg) (s : State) : Host.Outcome State Fault Refusal :=
  s.finish (.ok (s.setFlagThenV (highBitOf (s.v x)) x (s.v x <<< 1), .advance))

/-- RND Vx, kk: `rand8 AND kk`, with `rand8` a free value (R151; decision D18, log 1). -/
def execRnd (x : Reg) (kk : Byte) (s : State) : Host.Outcome State Fault Refusal :=
  s.finish (.ok (s.drawRandom.2.setV x (s.drawRandom.1 &&& kk), .advance))

end Sys2Proof.Machine
end

