-- ==== Sys2Proof/Machine/Timers.lean ====
section
/-! DEFINITION. The three timer instructions (44_timers.md). The tick of the same step follows them
(`State.tick`, R107, R297). -/

namespace Sys2Proof.Machine

/-- LD Vx, DT: the value before this step's tick (R190). -/
def execLdVxDT (x : Reg) (s : State) : Host.Outcome State Fault Refusal :=
  s.finish (.ok (s.setV x s.DT, .advance))

/-- LD DT, Vx (R191). -/
def execLdDTVx (x : Reg) (s : State) : Host.Outcome State Fault Refusal :=
  s.finish (.ok (s.setDT (s.v x), .advance))

/-- LD ST, Vx (R192). -/
def execLdSTVx (x : Reg) (s : State) : Host.Outcome State Fault Refusal :=
  s.finish (.ok (s.setST (s.v x), .advance))

end Sys2Proof.Machine
end

