-- ==== Sys2Proof/Machine/Cycle.lean ====
section
/-! DEFINITION. One step of the core, the Cycle Driver (40_cycle_driver.md R100 to R112). -/

namespace Sys2Proof.Machine

/-- Continue after a next state; a fault or a refusal stands. -/
def thenNext (o : Host.Outcome State Fault Refusal) (f : State → State) : Host.Outcome State Fault Refusal :=
  match o with
  | .next t => .next (f t)
  | .fault r => .fault r
  | .refused r => .refused r

/-- Decode, run one handler, and end the step, for a fetched word (R103 to R109). A word that selects no
operation runs the `Unknown` handler and asserts `unknown` (30_encoding.md R79). -/
def State.runWord (s : State) (w : Word) : Host.Outcome State Fault Refusal :=
  match decodeWord w with
  | .ok i => thenNext (exec i (s.begin w false)) State.endStep
  | .error _ => thenNext (execUnknown (s.begin w true)) State.endStep

/-- The step (R112). A faulted core does nothing but report its fault (R101); a fetch fault leaves all but
`FAULT` as it was (R102, R109). -/
def State.cycle (s : State) : Host.Outcome State Fault Refusal :=
  if s.FAULT = .none then
    match s.fetch with
    | .ok w => s.runWord w
    | .error c => .next ((s.setOutputs false false).raise c)
  else .next (s.setOutputs false false)

/-- `s` with the word of an instruction where the next step fetches. The fetch needs a core that has not
faulted and an even `pc` within 0xFFE (R101, R102): where `s` has neither, the core is made to run from the
reset entry point. Nothing else changes (log 25). -/
def State.placeNext (s : State) (nbits w : Nat) : State :=
  let p : Word := if s.pc.toNat ≤ 0xFFE ∧ s.pc.toNat % 2 = 0 then s.pc else BitVec.ofNat 16 Config.progBase
  { s with FAULT := .none, pc := p }.placeWord p.toNat (BitVec.ofNat 16 (w % 2 ^ nbits))

end Sys2Proof.Machine
end

