-- ==== Sys2Proof/Machine/Step.lean ====
section
/-! DEFINITION. The step of the machine and the host's way to place an instruction under it. -/

namespace Sys2Proof.Machine

/-- One step: one invocation of the Cycle Driver (40_cycle_driver.md R100). -/
def step : State → Host.Outcome State Fault Refusal := State.cycle

/-- `s` with an instruction of the opcode table stored where `step` fetches its next instruction (log 25). -/
def State.withFetchWord (s : State) (nbits w : Nat) : State := s.placeNext nbits w

end Sys2Proof.Machine
end

