-- ==== Sys2Proof/Machine/HostPort.lean ====
section
/-! DEFINITION. What the host does between steps (70_reset_and_hazards.md R290 to R294) and what it can read.
Reset is `State.hostReset` in Ops. -/

namespace Sys2Proof.Machine

/-- The 4-bit code of a cause (60_exceptions.md R261): what the host reads in `FAULT`. -/
def Cause.code : Cause → BitVec 4
  | .none => 0
  | .stackOverflow => 1
  | .stackUnderflow => 2
  | .fetchOutOfRange => 3
  | .fetchMisaligned => 4
  | .dataOutOfRange => 5
  | .fontWrite => 6
  | .keyIndexOutOfRange => 7

/-- The outputs of a step (40_cycle_driver.md R108). -/
structure Outputs where
  /-- The value of `FAULT` after the step. -/
  fault : Cause
  /-- The step decoded `Unknown`. -/
  unknown : Bool
  /-- The step's tick took `ST` from 1 to 0. -/
  soundExpired : Bool
  deriving DecidableEq, Repr

/-- The outputs of the last step, as the host sees them (R108). -/
def State.outputs (s : State) : Outputs := ⟨s.FAULT, s.unknown, s.soundExpired⟩

/-- The loader's one error (60_exceptions.md R263); not a `FAULT` code. -/
inductive LoadError where
  /-- The image is longer than 3584 bytes. -/
  | programTooLarge
  deriving DecidableEq, Repr

/-- Load a program image: its size is checked before anything is copied, then its bytes go to 0x200 and up,
verbatim, with no other effect (R291, R292, conflict C2, log 29). -/
def State.hostLoad (s : State) (image : List Byte) : Except LoadError State :=
  if Config.progMax < image.length then .error .programTooLarge
  else .ok (s.setM (s.M.writeAll Config.progBase image))

/-- Write the keypad, all 16 keys at once (R294, 45_input.md R213; log 23). -/
def State.hostKeys (s : State) (keys : Vector Bool 16) : State := { s with K := keys }

/-- The framebuffer port: element `r × 64 + c` of 2048 words is pixel `(c, r)` (46_display.md R232; decision
D15, log 18). -/
def State.portWord (s : State) (k : Fin 2048) : BitVec 32 :=
  (s.FB.pixel ⟨k.val % 64, Nat.mod_lt _ (by decide)⟩ ⟨k.val / 64, by omega⟩).word

end Sys2Proof.Machine
end

