-- ==== Sys2Proof/Safety.lean ====
section
/-! DEFINITION. The words the statements are written in: the places of the state, frames over them, the
states a step can run from, and the invariant every step keeps. -/

namespace Sys2Proof.Machine

/-- A place of the state: every piece the record of 10_state.md R20 and the model's own fields are made of. -/
inductive Loc where
  /-- `V[x]`. -/
  | v (x : Reg)
  /-- `M[a]`. -/
  | mem (a : Nat)
  /-- `I`. -/
  | index
  /-- `pc`. -/
  | pc
  /-- `S[k]`. -/
  | stack (k : Fin 16)
  /-- `SP`. -/
  | sp
  /-- `DT`. -/
  | dt
  /-- `ST`. -/
  | st
  /-- `K[k]`. -/
  | key (k : Fin 16)
  /-- `FB(c, r)`. -/
  | pixel (c : Fin 64) (r : Fin 32)
  /-- `IR`. -/
  | ir
  /-- `FAULT`. -/
  | fault
  /-- How many random bytes have been drawn (the model's own). -/
  | draws
  /-- The `unknown` output (the model's own field). -/
  | unknown
  /-- The `sound_expired` output (the model's own field). -/
  | soundExpired
  deriving DecidableEq, Repr

/-- Two states hold the same at a place. -/
def Loc.same (l : Loc) (s t : State) : Prop :=
  match l with
  | .v x => t.v x = s.v x
  | .mem a => t.M.read a = s.M.read a
  | .index => t.I = s.I
  | .pc => t.pc = s.pc
  | .stack k => t.S[k.val] = s.S[k.val]
  | .sp => t.SP = s.SP
  | .dt => t.DT = s.DT
  | .st => t.ST = s.ST
  | .key k => t.K[k.val] = s.K[k.val]
  | .pixel c r => t.FB.pixel c r = s.FB.pixel c r
  | .ir => t.IR = s.IR
  | .fault => t.FAULT = s.FAULT
  | .draws => t.draws = s.draws
  | .unknown => t.unknown = s.unknown
  | .soundExpired => t.soundExpired = s.soundExpired

/-- THE FRAME: from `s` to `t` every place outside `ws` holds what it held. -/
def OnlyWrites (ws : List Loc) (s t : State) : Prop := ∀ l, l ∉ ws → l.same s t

/-- The `n` memory places from `a` on. -/
def memBlock (a n : Nat) : List Loc := (List.range n).map fun k => .mem (a + k)

/-- The registers `V[0..x]`. -/
def regsUpTo (x : Reg) : List Loc := (List.range (x.toNat + 1)).map fun k => .v (BitVec.ofNat 4 k)

/-- All 2048 pixels. -/
def allPixels : List Loc :=
  (List.finRange 32).flatMap fun r => (List.finRange 64).map fun c => .pixel c r

/-- The places the rule of an instruction lets its handler write when it does not fault, `pc` among them
(40_cycle_driver.md R104: "A handler writes only the fields its rule names"). A store's addresses are those
its meaning computes: `I` onwards (43_index_memory.md R176). -/
def writesOf (i : Instr) (s : State) : List Loc :=
  match i with
  | .sys _ | .jp _ | .seImm _ _ | .sneImm _ _ | .seReg _ _ _ | .sneReg _ _ _ | .jpV0 _ | .skp _ | .sknp _ => [.pc]
  | .cls => .pc :: allPixels
  | .ret => [.pc, .sp]
  | .call _ => .pc :: .sp :: (if h : s.SP.val < 16 then [.stack ⟨s.SP.val, h⟩] else [])
  | .ldImm x _ | .addImm x _ | .ldReg x _ | .orReg x _ | .andReg x _ | .xorReg x _ | .ldVxDT x | .ldVxK x => [.pc, .v x]
  | .addReg x _ | .sub x _ | .shr x _ | .subn x _ | .shl x _ => [.pc, .v x, .v VF]
  | .rnd x _ => [.pc, .v x, .draws]
  | .ldI _ | .addI _ | .ldF _ => [.pc, .index]
  | .drw _ _ _ => .pc :: .v VF :: allPixels
  | .ldDTVx _ => [.pc, .dt]
  | .ldSTVx _ => [.pc, .st]
  | .ldB _ => .pc :: memBlock s.indexAddr 3
  | .ldMemVx x => .pc :: memBlock s.indexAddr (x.toNat + 1)
  | .ldVxMem x => .pc :: regsUpTo x

/-- The fault an instruction raises from a state, or `none` (60_exceptions.md R261): which instructions raise which
cause, and when. The fetch causes 3 and 4 are the step's own (40_cycle_driver.md R102). -/
def faultOf (i : Instr) (s : State) : Cause :=
  match i with
  | .call _ => if s.SP.val = 16 then .stackOverflow else .none
  | .ret => if s.SP.val = 0 then .stackUnderflow else .none
  | .drw _ _ n => if n.toNat ≠ 0 ∧ 4096 ≤ s.I.toNat + n.toNat - 1 then .dataOutOfRange else .none
  | .ldVxMem x => if 4096 ≤ s.I.toNat + x.toNat then .dataOutOfRange else .none
  | .ldB _ =>
    if 4096 ≤ s.I.toNat + 2 then .dataOutOfRange
    else if 0x050 ≤ s.I.toNat + 2 ∧ s.I.toNat ≤ 0x09F then .fontWrite else .none
  | .ldMemVx x =>
    if 4096 ≤ s.I.toNat + x.toNat then .dataOutOfRange
    else if 0x050 ≤ s.I.toNat + x.toNat ∧ s.I.toNat ≤ 0x09F then .fontWrite else .none
  | .skp x | .sknp x => if 16 ≤ (s.v x).toNat then .keyIndexOutOfRange else .none
  | .cls | .sys _ | .jp _ | .seImm _ _ | .sneImm _ _ | .seReg _ _ _ | .sneReg _ _ _ | .ldImm _ _ | .addImm _ _ => .none
  | .ldReg _ _ | .orReg _ _ | .andReg _ _ | .xorReg _ _ | .addReg _ _ | .sub _ _ | .shr _ _ | .subn _ _ => .none
  | .shl _ _ | .ldI _ | .jpV0 _ | .rnd _ _ | .ldVxDT _ | .ldVxK _ | .ldDTVx _ | .ldSTVx _ | .addI _ | .ldF _ => .none

/-- The next `pc` an instruction may choose when it does not fault, by its row of the result table
(40_cycle_driver.md R105, R106). -/
def nextPcOf (i : Instr) (s : State) (pc : Word) : Prop :=
  match i with
  | .jp nnn | .call nnn => pc.toNat = nnn.toNat
  | .jpV0 nnn => pc.toNat = (s.v 0x0#4).toNat + nnn.toNat
  | .ret => ∃ k : Fin 16, s.SP.val = k.val + 1 ∧ pc = s.S[k.val] + 2#16
  | .seImm _ _ | .sneImm _ _ | .seReg _ _ _ | .sneReg _ _ _ | .skp _ | .sknp _ => pc = s.pc + 2#16 ∨ pc = s.pc + 4#16
  | .ldVxK _ => (pc = s.pc + 2#16 ∧ ∃ k : Fin 16, s.K[k.val] = true) ∨ (pc = s.pc ∧ ∀ k : Fin 16, s.K[k.val] = false)
  | .cls | .sys _ | .ldImm _ _ | .addImm _ _ | .ldReg _ _ | .orReg _ _ | .andReg _ _ | .xorReg _ _ => pc = s.pc + 2#16
  | .addReg _ _ | .sub _ _ | .shr _ _ | .subn _ _ | .shl _ _ | .ldI _ | .rnd _ _ | .drw _ _ _ => pc = s.pc + 2#16
  | .ldVxDT _ | .ldDTVx _ | .ldSTVx _ | .addI _ | .ldF _ | .ldB _ | .ldMemVx _ | .ldVxMem _ => pc = s.pc + 2#16

/-- The core runs: no fault is set (40_cycle_driver.md R101). -/
abbrev State.running (s : State) : Prop := s.FAULT = .none

/-- A fetch succeeds: `pc` is even and within 0xFFE (40_cycle_driver.md R102). -/
abbrev State.fetchable (s : State) : Prop := s.pc.toNat ≤ 0xFFE ∧ s.pc.toNat % 2 = 0

/-- The next step fetches the word `w` and runs it (R101, R102). -/
abbrev State.about (s : State) (w : Word) : Prop :=
  s.running ∧ s.fetchable ∧ s.M.read s.pc.toNat ++ s.M.read (s.pc.toNat + 1) = w

/-- The core is parked: it runs, `M[pc] ++ M[pc+1] = 0x1nnn` and `nnn = pc` (70_reset_and_hazards.md R301). -/
def State.parked (s : State) : Prop :=
  s.running ∧ ∃ nnn : Addr, s.M.read s.pc.toNat ++ s.M.read (s.pc.toNat + 1) = (0x1#4 ++ nnn : Word) ∧
    s.pc.toNat = nnn.toNat

/-- `DRW Vx, Vy, n` draws the cell at column `c`, row `r`: it lies on the sprite and the sprite's bit for it is
set, bit 7 leftmost, row `k` from `M[I + k]`, from the wrapped origin (46_display.md R234 to R236). A cell
beyond the grid has no `c` or `r`: it is clipped. -/
def State.paints (s : State) (x y : Reg) (n : Nib) (c : Fin 64) (r : Fin 32) : Prop :=
  ∃ j k : Nat, j < 8 ∧ k < n.toNat ∧ c.val = (s.v x).toNat % 64 + j ∧ r.val = (s.v y).toNat % 32 + k ∧
    (s.M.read (s.I.toNat + k)).getLsbD (7 - j) = true

/-- The invariant every step keeps (10_state.md R35 and what the rules imply). Memory is canonical; the font
table holds its bytes (R35 d); every pushed return address is that of an instruction, even and within 0xFFE
(41_control_flow.md R121); `pc` is at most 0x10FE (R106, R128); and a faulted core shows no other output
(40_cycle_driver.md R101, R109). -/
structure State.Inv (s : State) : Prop where
  memory : s.M.wf
  font : ∀ a, inFont a → s.M.read a = unlisted a
  stack : ∀ k : Fin 16, k.val < s.SP.val → s.S[k.val].toNat ≤ 0xFFE ∧ s.S[k.val].toNat % 2 = 0
  pcBound : s.pc.toNat ≤ 0x10FE
  outputs : s.FAULT ≠ .none → s.unknown = false ∧ s.soundExpired = false

end Sys2Proof.Machine
end

