-- ==== Sys2Proof/Certificates/Slice0/Obligations.lean ====
section
/-! DEFINITION. The statements for the provers, from the spec's numbered rules. "log <n>" is
notes/assumptions/<n>.md; D<n>, G<n> and C<n> are the spec's own decisions, general-knowledge items and conflicts.
A result statement gives the next state's values and, through `OnlyWrites`, that every other place of the state
is unchanged. -/

open Sys2Proof Sys2Proof.Machine

/-! ### Encoding -/

/-- 30_encoding.md R74 to R81, as written out in 95_test_vectors.md T30-1 to T30-20 and Table E-1. The patterns are
PRESUMED (log 6; D29, G1), the second-level matches D2, D3 and G2 (log 7, log 8). -/
def Obligations.SpecWordsDecode : Prop :=
  (∀ p ∈ [((0x00E0 : Word), Instr.cls), (0x00EE, .ret), (0x0000, .sys 0x000), (0x01E0, .sys 0x1E0), (0x00E1, .sys 0x0E1),
      (0x0FFF, .sys 0xFFF), (0x1ABC, .jp 0xABC), (0x5121, .seReg 1 2 1), (0x9AB7, .sneReg 0xA 0xB 7), (0x800E, .shl 0 0),
      (0xB123, .jpV0 0x123), (0xD000, .drw 0 0 0), (0xE0A1, .sknp 0), (0xF165, .ldVxMem 1), (0x8126, .shr 1 2),
      (0x6C3D, .ldImm 0xC 0x3D)], decodeWord p.1 = .ok p.2) ∧
    ∀ p ∈ [((0x8008 : Word), Reject.family8 0x8), (0x800F, .family8 0xF), (0xE09F, .familyE 0x9F), (0xE5A2, .familyE 0xA2),
      (0xF000, .familyF 0x00), (0xF0FF, .familyF 0xFF)], decodeWord p.1 = .error p.2

/-- 30_encoding.md R71, R80: the word and the two bytes of every well-formed instruction decode to it, whatever bytes
follow. The patterns are PRESUMED (log 6). -/
def Obligations.DecodeOfEncode : Prop :=
  ∀ i : Instr, i.wellFormed = true →
    decodeWord (encode i) = .ok i ∧ ∀ rest, decode (encodeBytes i ++ rest) = .ok (i, rest)

/-- 30_encoding.md R80, R83: a word that decodes is the word of exactly the instruction it decodes to, with no bit
dropped, ignored fields included. -/
def Obligations.EncodeOfDecode : Prop :=
  ∀ (w : Word) (i : Instr), decodeWord w = .ok i → i.wellFormed = true ∧ encode i = w

/-- 30_encoding.md R80: "A word selects the first row, from the top, whose (w AND mask) = match": the two-level
decoder of R73 to R77 picks that row, and no row exactly when no row matches. The patterns are
PRESUMED (D29, log 6). -/
def Obligations.DecoderFollowsTableE1 : Prop :=
  ∀ w : Word, (decodeWord w).toOption.map Instr.row = rowOf w

/-- 30_encoding.md R81: exactly which words select no operation (D3, log 8; patterns PRESUMED, log 6). -/
def Obligations.UnknownWordsAreThese : Prop :=
  ∀ w : Word, (∃ r, decodeWord w = .error r) ↔
    (w.toNat / 4096 = 8 ∧ w.toNat % 16 ∈ [8, 9, 0xA, 0xB, 0xC, 0xD, 0xF]) ∨
    (w.toNat / 4096 = 0xE ∧ w.toNat % 256 ∉ [0x9E, 0xA1]) ∨
    (w.toNat / 4096 = 0xF ∧ w.toNat % 256 ∉ [0x07, 0x0A, 0x15, 0x18, 0x1E, 0x29, 0x33, 0x55, 0x65])

/-! ### The step -/

/-- 40_cycle_driver.md R103, R107, R112: a running core with a fetchable `pc` runs the instruction its word decodes to:
`exec` on the state with the word in `IR` and the outputs cleared, then, unless that faulted, one tick of both timers
and the expiry signal (D21, log 20). -/
def Obligations.StepRunsDecodedInstruction : Prop :=
  ∀ (s : State) (w : Word) (i : Instr), s.about w → decodeWord w = .ok i →
    ∃ t, exec i { s with IR := w, unknown := false, soundExpired := false } = .next t ∧
      step s = .next (if t.FAULT = .none then
        { t with
          DT := if t.DT = 0#8 then 0#8 else t.DT - 1#8
          ST := if t.ST = 0#8 then 0#8 else t.ST - 1#8
          soundExpired := t.ST == 1#8 } else t)

/-- 30_encoding.md R79: an unknown word is "a no-op that still advances the instruction pointer normally", asserts the
`unknown` output, sets no `FAULT`, and the timers tick as on any step (what the tick signals is TimersCountSteps'). The
Boolean output is the spec's decision D26 (R108), held in State and asserted by a rejected word's own handler (log 2,
log 30); that `IR` holds the word is 40_cycle_driver.md R102. -/
def Obligations.UnknownWordIsReportedNoOp : Prop :=
  ∀ (s : State) (w : Word) (r : Reject), s.about w → decodeWord w = .error r →
    ∃ t, step s = .next t ∧ t.pc = s.pc + 2#16 ∧ t.IR = w ∧ t.unknown = true ∧
      t.DT.toNat = s.DT.toNat - 1 ∧ t.ST.toNat = s.ST.toNat - 1 ∧
      OnlyWrites [.pc, .ir, .unknown, .soundExpired, .dt, .st] s t

/-- 40_cycle_driver.md R101, 10_state.md R35 (e): the spec's decision D16 (log 19). A faulted core reports its fault and
changes nothing else; where the invariant holds, not even the outputs differ. -/
def Obligations.FaultedCoreDoesNothing : Prop :=
  ∀ s : State, s.FAULT ≠ .none →
    ∃ t, step s = .next t ∧ t.outputs = ⟨s.FAULT, false, false⟩ ∧ OnlyWrites [.unknown, .soundExpired] s t ∧
      (s.Inv → t = s)

/-- 40_cycle_driver.md R102, R109: the spec's decision D10 (log 13). A fetch beyond 0xFFE or from an odd `pc` faults,
range before alignment, and leaves all but `FAULT` (and the outputs) as it was: `pc`, `IR` and the timers too. -/
def Obligations.BadFetchFaults : Prop :=
  ∀ s : State, s.running → ¬ s.fetchable →
    ∃ t, step s = .next t ∧
      t.FAULT = (if 0xFFE < s.pc.toNat then .fetchOutOfRange else .fetchMisaligned) ∧
      t.unknown = false ∧ t.soundExpired = false ∧ OnlyWrites [.fault, .unknown, .soundExpired] s t

/-- 40_cycle_driver.md R101, R109, R112: from every state an instruction answers a next state, and so does a step; no
condition stops the model. That a full or empty stack, a bad access, a bad fetch and a faulted core answer one too is
the model's reading of the spec's decision D16 (log 19), and that a word that selects no operation does is log 30. -/
def Obligations.EveryStepAnswers : Prop :=
  (∀ (i : Instr) (s : State), ∃ t, exec i s = .next t) ∧ ∀ s : State, ∃ t, step s = .next t

/-- 60_exceptions.md R261, R264, R265: which instruction raises which cause and when, and that it then changes `FAULT`
alone. The causes and their conditions are the spec's decisions D7, D8, D11, D12, D16, D17 (log 11, 12, 14, 15, 19). -/
def Obligations.FaultsAreThese : Prop :=
  ∀ (i : Instr) (s : State), s.running →
    ∃ t, exec i s = .next t ∧ t.FAULT = faultOf i s ∧
      (faultOf i s ≠ .none → t = { s with FAULT := faultOf i s })

/-- 40_cycle_driver.md R109, 60_exceptions.md R265 (D16, D30, log 19): the step of a faulting handler keeps everything
but `FAULT` and `IR`: `pc` holds the instruction's address, the timers do not tick, the other outputs are false. -/
def Obligations.FaultingStepIsPrecise : Prop :=
  ∀ (s t : State) (w : Word), s.about w → step s = .next t → t.FAULT ≠ .none →
    t = { s with IR := w, FAULT := t.FAULT, unknown := false, soundExpired := false }

/-- 40_cycle_driver.md R105, R106: where each instruction that does not fault may take `pc` (JP V0 untruncated: D24,
log 22; RET past the call: C3, log 29). -/
def Obligations.NextPcFollowsResult : Prop :=
  ∀ (i : Instr) (s t : State), s.running → exec i s = .next t → t.running → nextPcOf i s t.pc

/-- 44_timers.md R193: "At the end of each non-faulting step, after the handler's writes and the pc update: if DT > 0
then DT <- DT − 1", whatever the instruction, and for a word that selects none. Both timers "are clamped at 0". -/
def Obligations.TimersTickAfterHandler : Prop :=
  (∀ (s t u : State) (w : Word) (i : Instr), s.about w → decodeWord w = .ok i →
    exec i { s with IR := w, unknown := false, soundExpired := false } = .next u → u.running →
    step s = .next t → t.DT.toNat = u.DT.toNat - 1 ∧ t.ST.toNat = u.ST.toNat - 1 ∧ t.pc = u.pc) ∧
  ∀ (s t : State) (w : Word) (r : Reject), s.about w → decodeWord w = .error r → step s = .next t →
    t.DT.toNat = s.DT.toNat - 1 ∧ t.ST.toNat = s.ST.toNat - 1 ∧ t.pc = s.pc + 2#16

/-- 40_cycle_driver.md R107, 44_timers.md R193, R194: from one non-faulting step to the next both timers go down by one
and stop at 0, unless the step writes them, and the expiry signal comes exactly with `ST` from 1 to 0 (D21, log 20). -/
def Obligations.TimersCountSteps : Prop :=
  ∀ (s t : State) (w : Word), s.about w → step s = .next t → t.running →
    ((∀ x, decodeWord w ≠ .ok (.ldDTVx x)) → t.DT.toNat = s.DT.toNat - 1) ∧
    ((∀ x, decodeWord w ≠ .ok (.ldSTVx x)) →
      t.ST.toNat = s.ST.toNat - 1 ∧ (t.soundExpired = true ↔ s.ST.toNat = 1 ∧ t.ST.toNat = 0))

/-! ### Whole-machine rules -/

/-- 40_cycle_driver.md R104: "A handler writes only the fields its rule names". The frame of every instruction: outside
the places its rule writes, nothing changes. A store's places are those from the address its meaning computes. -/
def Obligations.HandlersWriteOnlyTheirFields : Prop :=
  ∀ (i : Instr) (s t : State), s.running → exec i s = .next t → t.running → OnlyWrites (writesOf i s) s t

/-- 10_state.md R35 and what the rules imply (R106, R121, R128, R109): every step keeps the invariant, from every state
that has it. The font clause is D11 (log 14), the bound of `pc` rests on D24 (log 22), canonical memory is the
model's (log 27). -/
def Obligations.StepKeepsInv : Prop :=
  ∀ s t : State, s.Inv → step s = .next t → t.Inv

/-- The invariant of `StepKeepsInv` holds after reset. It rests on `SP = 0` and `pc = 0x200`, which are the spec's
decision D19 (log 3), and on memory listing nothing, which is the model's form of it (log 27; D19, log 3, log 4). -/
def Obligations.ResetHasInv : Prop := State.reset.Inv

/-- 10_state.md R35 (d): the font table never changes, from any state (the spec enforces it by a fault, D11, log 14). -/
def Obligations.FontNeverChanges : Prop :=
  ∀ (s t : State) (a : Nat), 0x050 ≤ a → a ≤ 0x09F → step s = .next t → t.M.read a = s.M.read a

/-- 10_state.md R28, R30, R32 and 20_memory.md R57: who writes what. No step writes the keypad. In a handler: `IR` never;
memory only `LD B` and `LD [I]`; the stack only `CALL` and `RET`; the framebuffer only `CLS` and `DRW`; `I` only its
three writers; each timer only its load. The spec derives R32 and decides D25 (log 23). -/
def Obligations.FieldsHaveTheseWriters : Prop :=
  (∀ s t : State, step s = .next t → t.K = s.K) ∧
  ∀ (i : Instr) (s t : State), exec i s = .next t →
    t.IR = s.IR ∧
    (t.M = s.M ∨ (∃ x, i = .ldB x) ∨ ∃ x, i = .ldMemVx x) ∧
    ((t.S = s.S ∧ t.SP = s.SP) ∨ i = .ret ∨ ∃ nnn, i = .call nnn) ∧
    (t.FB = s.FB ∨ i = .cls ∨ ∃ x y n, i = .drw x y n) ∧
    (t.I = s.I ∨ (∃ nnn, i = .ldI nnn) ∨ (∃ x, i = .addI x) ∨ ∃ x, i = .ldF x) ∧
    (t.DT = s.DT ∨ ∃ x, i = .ldDTVx x) ∧ (t.ST = s.ST ∨ ∃ x, i = .ldSTVx x)

/-- 10_state.md R23: "Every other instruction leaves VF unchanged unless it names VF as its destination register". The
logic operations among them are D5 (log 9). -/
def Obligations.FlagHasTheseWriters : Prop :=
  ∀ (i : Instr) (s t : State), exec i s = .next t → t.v VF ≠ s.v VF →
    (∃ x y, i = .addReg x y ∨ i = .sub x y ∨ i = .shr x y ∨ i = .subn x y ∨ i = .shl x y) ∨
    (∃ x y n, i = .drw x y n) ∨
    (∃ kk, i = .ldImm VF kk ∨ i = .addImm VF kk ∨ i = .rnd VF kk) ∨
    (∃ y, i = .ldReg VF y ∨ i = .orReg VF y ∨ i = .andReg VF y ∨ i = .xorReg VF y) ∨
    i = .ldVxDT VF ∨ i = .ldVxK VF ∨ i = .ldVxMem VF

/-- 10_state.md R34, 70_reset_and_hazards.md R290: the state after reset, and the 80 font bytes, glyph by glyph. The
framebuffer and the place of the font are the source's; the font bytes are PRESUMED (D20, log 4); every zero, and `pc` at
0x200, which the source makes the caller's duty, is the spec's decision D19 (log 3). A host reset keeps `draws`, which is no state of the spec (log 1). -/
def Obligations.ResetState : Prop :=
  (∀ s : State, s.hostReset = { State.reset with draws := s.draws }) ∧
  (∀ x, State.reset.v x = 0#8) ∧ State.reset.I = 0#16 ∧ State.reset.pc = 0x200#16 ∧ State.reset.SP = 0 ∧
  (∀ k : Fin 16, State.reset.S[k.val] = 0#16) ∧ State.reset.DT = 0#8 ∧ State.reset.ST = 0#8 ∧
  (∀ k : Fin 16, State.reset.K[k.val] = false) ∧ (∀ c r, State.reset.FB.pixel c r = .off) ∧
  State.reset.IR = 0x0000#16 ∧ State.reset.FAULT = .none ∧
  (∀ a, a < 0x050 ∨ 0x09F < a → State.reset.M.read a = 0#8) ∧
  (List.range 20).map (fun k => State.reset.M.read (0x050 + k)) =
    [0xF0, 0x90, 0x90, 0x90, 0xF0, 0x20, 0x60, 0x20, 0x20, 0x70, 0xF0, 0x10, 0xF0, 0x80, 0xF0, 0xF0, 0x10, 0xF0, 0x10, 0xF0] ∧
  (List.range 20).map (fun k => State.reset.M.read (0x064 + k)) =
    [0x90, 0x90, 0xF0, 0x10, 0x10, 0xF0, 0x80, 0xF0, 0x10, 0xF0, 0xF0, 0x80, 0xF0, 0x90, 0xF0, 0xF0, 0x10, 0x20, 0x40, 0x40] ∧
  (List.range 20).map (fun k => State.reset.M.read (0x078 + k)) =
    [0xF0, 0x90, 0xF0, 0x90, 0xF0, 0xF0, 0x90, 0xF0, 0x10, 0xF0, 0xF0, 0x90, 0xF0, 0x90, 0x90, 0xE0, 0x90, 0xE0, 0x90, 0xE0] ∧
  (List.range 20).map (fun k => State.reset.M.read (0x08C + k)) =
    [0xF0, 0x80, 0x80, 0x80, 0xF0, 0xE0, 0x90, 0x90, 0x90, 0xE0, 0xF0, 0x80, 0xF0, 0x80, 0xF0, 0xF0, 0x80, 0xF0, 0x80, 0x80]

/-! ### Memory -/

/-- 20_memory.md R52, R53, R60: `MemWrite` refuses an address beyond memory and then one in the font, else the byte
reads back and every other address reads as before; `MemRead` refuses an address beyond memory. The faults are D8 and
D11 (log 12, log 14). -/
def Obligations.MemoryPrimitives : Prop :=
  ∀ (s : State) (a : Nat) (b : Byte),
    (s.memRead a = if 4096 ≤ a then .error .dataOutOfRange else .ok (s.M.read a)) ∧
    (4096 ≤ a → s.memWrite a b = .error .dataOutOfRange) ∧
    (0x050 ≤ a → a ≤ 0x09F → s.memWrite a b = .error .fontWrite) ∧
    (a < 4096 → a < 0x050 ∨ 0x09F < a → ∃ t, s.memWrite a b = .ok t ∧
      (s.M.wf → t.M.wf ∧ t.M.read a = b) ∧ OnlyWrites [.mem a] s t)

/-- 20_memory.md R54: "FetchWord(p) = M[p] ++ M[p+1]", "The byte at the lower address is bits 15..8 of the word". -/
def Obligations.FetchIsBigEndian : Prop :=
  ∀ (s : State) (p : Nat), (s.fetchWord p).toNat = (s.M.read p).toNat * 256 + (s.M.read (p + 1)).toNat

/-- 20_memory.md R63, R55 (derived in the spec): a fetch sees the bytes an earlier `LD [I], Vx` stored, big-endian. -/
def Obligations.StoreIsSeenByFetch : Prop :=
  ∀ (s t : State) (x : Reg) (k : Nat), s.M.wf → s.running → exec (.ldMemVx x) s = .next t → t.running → k + 1 ≤ x.toNat →
    t.fetchWord (s.I.toNat + k) = s.v (BitVec.ofNat 4 k) ++ s.v (BitVec.ofNat 4 (k + 1))

/-! ### Control flow -/

/-- 41_control_flow.md R120 (D2, C1; log 7): SYS writes nothing but `pc`, whatever `nnn`, and its step does not assert
`unknown`. The pattern 0nnn is PRESUMED (D29, log 6). -/
def Obligations.SysAdvances : Prop :=
  (∀ (s : State) (nnn : Addr), ∃ t, exec (.sys nnn) s = .next t ∧ t.pc = s.pc + 2#16 ∧ OnlyWrites [.pc] s t) ∧
  ∀ (s : State) (nnn : Addr), nnn ≠ 0x0E0#12 → nnn ≠ 0x0EE#12 → s.about (0x0#4 ++ nnn : Word) →
    ∃ t, step s = .next t ∧ t.unknown = false ∧ t.running ∧ t.pc = s.pc + 2#16

/-- 41_control_flow.md R121: RET resumes 2 past the newest entry and does not clear it (C3, log 29); with nothing pushed
it raises `STACK_UNDERFLOW` (D7, log 11). -/
def Obligations.RetPopsOrUnderflows : Prop :=
  (∀ (s : State) (k : Fin 16), s.SP.val = k.val + 1 →
    ∃ t, exec .ret s = .next t ∧ t.SP.val = k.val ∧ t.pc = s.S[k.val] + 2#16 ∧ OnlyWrites [.pc, .sp] s t) ∧
  ∀ s : State, s.SP.val = 0 →
    ∃ t, exec .ret s = .next t ∧ t.FAULT = .stackUnderflow ∧ OnlyWrites [.fault] s t

/-- 41_control_flow.md R122: "return Jump(zext_16(nnn))". -/
def Obligations.JpJumps : Prop :=
  ∀ (s : State) (nnn : Addr), ∃ t, exec (.jp nnn) s = .next t ∧ t.pc.toNat = nnn.toNat ∧ OnlyWrites [.pc] s t

/-- 41_control_flow.md R123: CALL pushes its own address and jumps; with 16 entries pushed it raises `STACK_OVERFLOW`
(D7, log 11). -/
def Obligations.CallPushesOrOverflows : Prop :=
  (∀ (s : State) (nnn : Addr) (k : Fin 16), s.SP.val = k.val →
    ∃ t, exec (.call nnn) s = .next t ∧ t.S[k.val] = s.pc ∧ t.SP.val = k.val + 1 ∧ t.pc.toNat = nnn.toNat ∧
      OnlyWrites [.pc, .sp, .stack k] s t) ∧
  ∀ (s : State) (nnn : Addr), s.SP.val = 16 →
    ∃ t, exec (.call nnn) s = .next t ∧ t.FAULT = .stackOverflow ∧ OnlyWrites [.fault] s t

/-- 41_control_flow.md R124, R125: the skips against an immediate move `pc` by 4 or by 2. -/
def Obligations.ImmediateSkips : Prop :=
  ∀ (s : State) (x : Reg) (kk : Byte),
    (∃ t, exec (.seImm x kk) s = .next t ∧ (t.pc = if s.v x = kk then s.pc + 4#16 else s.pc + 2#16) ∧
      OnlyWrites [.pc] s t) ∧
    ∃ t, exec (.sneImm x kk) s = .next t ∧ (t.pc = if s.v x ≠ kk then s.pc + 4#16 else s.pc + 2#16) ∧
      OnlyWrites [.pc] s t

/-- 41_control_flow.md R126, R127: the skips between registers, for every `n`, which is ignored. -/
def Obligations.RegisterSkips : Prop :=
  ∀ (s : State) (x y : Reg) (n : Nib),
    (∃ t, exec (.seReg x y n) s = .next t ∧ (t.pc = if s.v x = s.v y then s.pc + 4#16 else s.pc + 2#16) ∧
      OnlyWrites [.pc] s t) ∧
    ∃ t, exec (.sneReg x y n) s = .next t ∧ (t.pc = if s.v x ≠ s.v y then s.pc + 4#16 else s.pc + 2#16) ∧
      OnlyWrites [.pc] s t

/-- 41_control_flow.md R128: the sum of `V0` and `nnn`, not truncated to 12 bits (D24, log 22). -/
def Obligations.JpV0Jumps : Prop :=
  ∀ (s : State) (nnn : Addr), ∃ t, exec (.jpV0 nnn) s = .next t ∧ t.pc.toNat = (s.v 0x0#4).toNat + nnn.toNat ∧
    OnlyWrites [.pc] s t

/-- 41_control_flow.md R121, R123 and conflict C3 (log 29): a CALL whose target is a RET comes back to the instruction
after the CALL, with `SP` as before. The words 2nnn and 00EE are PRESUMED (D29, G10; log 6). -/
def Obligations.CallThenRetResumes : Prop :=
  ∀ (s : State) (nnn : Addr), s.about (0x2#4 ++ nnn : Word) → s.SP.val < 16 → nnn.toNat ≤ 0xFFE → nnn.toNat % 2 = 0 →
    s.M.read nnn.toNat ++ s.M.read (nnn.toNat + 1) = 0x00EE#16 →
    ∃ t u, step s = .next t ∧ step t = .next u ∧ u.running ∧ u.pc = s.pc + 2#16 ∧ u.SP = s.SP ∧ ∀ x, u.v x = s.v x

/-! ### Registers and arithmetic -/

/-- 42_register_alu.md R140, R141: the immediate forms; ADD wraps modulo 256 and writes no flag. -/
def Obligations.ImmediateLoadAndAdd : Prop :=
  ∀ (s : State) (x : Reg) (kk : Byte),
    (∃ t, exec (.ldImm x kk) s = .next t ∧ t.v x = kk ∧ t.pc = s.pc + 2#16 ∧ OnlyWrites [.pc, .v x] s t) ∧
    ∃ t, exec (.addImm x kk) s = .next t ∧ (t.v x).toNat = ((s.v x).toNat + kk.toNat) % 256 ∧ t.pc = s.pc + 2#16 ∧
      OnlyWrites [.pc, .v x] s t

/-- 42_register_alu.md R142: "V[x] <- old(V[y]); return Advance". -/
def Obligations.RegisterLoad : Prop :=
  ∀ (s : State) (x y : Reg), ∃ t, exec (.ldReg x y) s = .next t ∧ t.v x = s.v y ∧ t.pc = s.pc + 2#16 ∧
    OnlyWrites [.pc, .v x] s t

/-- 42_register_alu.md R143, R144, R145: the logic operations, bit by bit. That `VF` is kept unless `x = 15` is D5
(log 9). -/
def Obligations.LogicOperations : Prop :=
  ∀ (s : State) (x y : Reg),
    (∃ t, exec (.orReg x y) s = .next t ∧
      (∀ k, (t.v x).getLsbD k = ((s.v x).getLsbD k || (s.v y).getLsbD k)) ∧ t.pc = s.pc + 2#16 ∧
      OnlyWrites [.pc, .v x] s t) ∧
    (∃ t, exec (.andReg x y) s = .next t ∧
      (∀ k, (t.v x).getLsbD k = ((s.v x).getLsbD k && (s.v y).getLsbD k)) ∧ t.pc = s.pc + 2#16 ∧
      OnlyWrites [.pc, .v x] s t) ∧
    ∃ t, exec (.xorReg x y) s = .next t ∧
      (∀ k, (t.v x).getLsbD k = ((s.v x).getLsbD k ^^ (s.v y).getLsbD k)) ∧ t.pc = s.pc + 2#16 ∧
      OnlyWrites [.pc, .v x] s t

/-- 42_register_alu.md R146: the sum modulo 256 and the carry. With `x = 15` the result wins and the flag is lost (D4,
log 5). -/
def Obligations.AddWithCarry : Prop :=
  ∀ (s : State) (x y : Reg), ∃ t, exec (.addReg x y) s = .next t ∧
    (t.v x).toNat = ((s.v x).toNat + (s.v y).toNat) % 256 ∧
    (x ≠ VF → t.v VF = if 255 < (s.v x).toNat + (s.v y).toNat then 1#8 else 0#8) ∧
    t.pc = s.pc + 2#16 ∧ OnlyWrites [.pc, .v x, .v VF] s t

/-- 42_register_alu.md R147, R149: the two subtractions modulo 256, with the strict not-borrow flag. With `x = 15` the
result wins and the flag is lost (D4, log 5). -/
def Obligations.Subtractions : Prop :=
  ∀ (s : State) (x y : Reg),
    (∃ t, exec (.sub x y) s = .next t ∧
      (t.v x).toNat = ((s.v x).toNat + 256 - (s.v y).toNat) % 256 ∧
      (x ≠ VF → t.v VF = if (s.v y).toNat < (s.v x).toNat then 1#8 else 0#8) ∧
      t.pc = s.pc + 2#16 ∧ OnlyWrites [.pc, .v x, .v VF] s t) ∧
    ∃ t, exec (.subn x y) s = .next t ∧
      (t.v x).toNat = ((s.v y).toNat + 256 - (s.v x).toNat) % 256 ∧
      (x ≠ VF → t.v VF = if (s.v x).toNat < (s.v y).toNat then 1#8 else 0#8) ∧
      t.pc = s.pc + 2#16 ∧ OnlyWrites [.pc, .v x, .v VF] s t

/-- 42_register_alu.md R148, R150: the two shifts by one, the bit moved out to `VF`; `y` has no effect. With `x = 15` the
result wins and the flag is lost (D4, log 5). -/
def Obligations.Shifts : Prop :=
  ∀ (s : State) (x y : Reg),
    (∃ t, exec (.shr x y) s = .next t ∧ (t.v x).toNat = (s.v x).toNat / 2 ∧
      (x ≠ VF → (t.v VF).toNat = (s.v x).toNat % 2) ∧ t.pc = s.pc + 2#16 ∧ OnlyWrites [.pc, .v x, .v VF] s t) ∧
    ∃ t, exec (.shl x y) s = .next t ∧ (t.v x).toNat = (s.v x).toNat * 2 % 256 ∧
      (x ≠ VF → (t.v VF).toNat = (s.v x).toNat / 128) ∧ t.pc = s.pc + 2#16 ∧ OnlyWrites [.pc, .v x, .v VF] s t

/-- 42_register_alu.md R151: a random byte AND `kk`. The byte is a free value of the model (D18, log 1): the statement
holds whatever it is. Each draw takes the next one, and a bit is 0 wherever `kk` has a 0. -/
def Obligations.RandomIsMasked : Prop :=
  ∀ (s : State) (x : Reg) (kk : Byte), ∃ t, exec (.rnd x kk) s = .next t ∧
    t.v x = Config.rand8 s.draws &&& kk ∧ (∀ k, kk.getLsbD k = false → (t.v x).getLsbD k = false) ∧
    t.draws = s.draws + 1 ∧ t.pc = s.pc + 2#16 ∧ OnlyWrites [.pc, .v x, .draws] s t

/-! ### Index register and memory -/

/-- 43_index_memory.md R170, R172: the two loads of `I`; the glyph address is not masked. -/
def Obligations.IndexLoads : Prop :=
  (∀ (s : State) (nnn : Addr), ∃ t, exec (.ldI nnn) s = .next t ∧ t.I.toNat = nnn.toNat ∧ t.pc = s.pc + 2#16 ∧
    OnlyWrites [.pc, .index] s t) ∧
  ∀ (s : State) (x : Reg), ∃ t, exec (.ldF x) s = .next t ∧ t.I.toNat = 0x050 + 5 * (s.v x).toNat ∧
    t.pc = s.pc + 2#16 ∧ OnlyWrites [.pc, .index] s t

/-- 43_index_memory.md R171: the sum in 16 bits, no flag (the wrap is D24, log 22). -/
def Obligations.IndexAdd : Prop :=
  ∀ (s : State) (x : Reg), ∃ t, exec (.addI x) s = .next t ∧ t.I.toNat = (s.I.toNat + (s.v x).toNat) % 65536 ∧
    t.pc = s.pc + 2#16 ∧ OnlyWrites [.pc, .index] s t

/-- 43_index_memory.md R173: three decimal digits to `M[I..I+2]`, `I` kept. When the block leaves memory or meets the
font it faults with nothing written (D8, D9, D11; log 12, log 14). -/
def Obligations.BcdStores : Prop :=
  (∀ (s : State) (x : Reg), s.I.toNat + 2 ≤ 0xFFF → s.I.toNat + 2 < 0x050 ∨ 0x09F < s.I.toNat →
    ∃ t, exec (.ldB x) s = .next t ∧ t.pc = s.pc + 2#16 ∧ OnlyWrites (.pc :: memBlock s.I.toNat 3) s t ∧
      (s.M.wf → t.M.wf ∧
        (t.M.read s.I.toNat).toNat = (s.v x).toNat / 100 ∧
        (t.M.read (s.I.toNat + 1)).toNat = (s.v x).toNat / 10 % 10 ∧
        (t.M.read (s.I.toNat + 2)).toNat = (s.v x).toNat % 10)) ∧
  (∀ (s : State) (x : Reg), 0xFFF < s.I.toNat + 2 →
    ∃ t, exec (.ldB x) s = .next t ∧ t.FAULT = .dataOutOfRange ∧ OnlyWrites [.fault] s t) ∧
  ∀ (s : State) (x : Reg), 0x050 ≤ s.I.toNat + 2 → s.I.toNat ≤ 0x09F →
    ∃ t, exec (.ldB x) s = .next t ∧ t.FAULT = .fontWrite ∧ OnlyWrites [.fault] s t

/-- 43_index_memory.md R174: `V[0..x]` to `M[I..I+x]`, `I` kept (D6, log 10). When the block leaves memory or meets the
font it faults with nothing written (D8, D9, D11; log 12, log 14). -/
def Obligations.RegisterBlockStores : Prop :=
  (∀ (s : State) (x : Reg), s.I.toNat + x.toNat ≤ 0xFFF → s.I.toNat + x.toNat < 0x050 ∨ 0x09F < s.I.toNat →
    ∃ t, exec (.ldMemVx x) s = .next t ∧ t.pc = s.pc + 2#16 ∧
      OnlyWrites (.pc :: memBlock s.I.toNat (x.toNat + 1)) s t ∧
      (s.M.wf → t.M.wf ∧ ∀ k : Reg, k.toNat ≤ x.toNat → t.M.read (s.I.toNat + k.toNat) = s.v k)) ∧
  (∀ (s : State) (x : Reg), 0xFFF < s.I.toNat + x.toNat →
    ∃ t, exec (.ldMemVx x) s = .next t ∧ t.FAULT = .dataOutOfRange ∧ OnlyWrites [.fault] s t) ∧
  ∀ (s : State) (x : Reg), 0x050 ≤ s.I.toNat + x.toNat → s.I.toNat ≤ 0x09F →
    ∃ t, exec (.ldMemVx x) s = .next t ∧ t.FAULT = .fontWrite ∧ OnlyWrites [.fault] s t

/-- 43_index_memory.md R175: `M[I..I+x]` to `V[0..x]`, the font readable too, `I` kept (D6, log 10). When the block leaves
memory it faults with no register written (D8, log 12). -/
def Obligations.RegisterBlockLoads : Prop :=
  (∀ (s : State) (x : Reg), s.I.toNat + x.toNat ≤ 0xFFF →
    ∃ t, exec (.ldVxMem x) s = .next t ∧ t.pc = s.pc + 2#16 ∧
      (∀ k : Reg, k.toNat ≤ x.toNat → t.v k = s.M.read (s.I.toNat + k.toNat)) ∧ OnlyWrites (.pc :: regsUpTo x) s t) ∧
  ∀ (s : State) (x : Reg), 0xFFF < s.I.toNat + x.toNat →
    ∃ t, exec (.ldVxMem x) s = .next t ∧ t.FAULT = .dataOutOfRange ∧ OnlyWrites [.fault] s t

/-! ### Timers and keypad -/

/-- 44_timers.md R190, R191, R192: the three timer instructions, before the tick of their step. -/
def Obligations.TimerInstructions : Prop :=
  ∀ (s : State) (x : Reg),
    (∃ t, exec (.ldVxDT x) s = .next t ∧ t.v x = s.DT ∧ t.pc = s.pc + 2#16 ∧ OnlyWrites [.pc, .v x] s t) ∧
    (∃ t, exec (.ldDTVx x) s = .next t ∧ t.DT = s.v x ∧ t.pc = s.pc + 2#16 ∧ OnlyWrites [.pc, .dt] s t) ∧
    ∃ t, exec (.ldSTVx x) s = .next t ∧ t.ST = s.v x ∧ t.pc = s.pc + 2#16 ∧ OnlyWrites [.pc, .st] s t

/-- 44_timers.md R195, 70_reset_and_hazards.md R297 (derived in the spec; D21, log 20; patterns PRESUMED, log 6): a step
that writes a timer ticks it too, so it ends one lower, and writing 1 to `ST` raises the signal in that same step;
reading `DT` takes the value before the tick. -/
def Obligations.TimerWriteThenTick : Prop :=
  ∀ (s : State) (x : Reg),
    (s.about (0xF#4 ++ x ++ 0x15#8 : Word) → ∃ t, step s = .next t ∧ t.running ∧ t.DT.toNat = (s.v x).toNat - 1) ∧
    (s.about (0xF#4 ++ x ++ 0x18#8 : Word) → ∃ t, step s = .next t ∧ t.running ∧ t.ST.toNat = (s.v x).toNat - 1 ∧
      (t.soundExpired = true ↔ s.v x = 1#8)) ∧
    (s.about (0xF#4 ++ x ++ 0x07#8 : Word) → ∃ t, step s = .next t ∧ t.running ∧ t.v x = s.DT ∧
      t.DT.toNat = s.DT.toNat - 1)

/-- 45_input.md R210, R211: the key skips move `pc` by 4 or by 2; a register above 15 raises `KEY_INDEX_OUT_OF_RANGE`
(D12, log 15). -/
def Obligations.KeySkips : Prop :=
  (∀ (s : State) (x : Reg) (k : Fin 16), (s.v x).toNat = k.val →
    (∃ t, exec (.skp x) s = .next t ∧ (t.pc = if s.K[k.val] = true then s.pc + 4#16 else s.pc + 2#16) ∧
      OnlyWrites [.pc] s t) ∧
    ∃ t, exec (.sknp x) s = .next t ∧ (t.pc = if s.K[k.val] = false then s.pc + 4#16 else s.pc + 2#16) ∧
      OnlyWrites [.pc] s t) ∧
  ∀ (s : State) (x : Reg), 16 ≤ (s.v x).toNat →
    (∃ t, exec (.skp x) s = .next t ∧ t.FAULT = .keyIndexOutOfRange ∧ OnlyWrites [.fault] s t) ∧
    ∃ t, exec (.sknp x) s = .next t ∧ t.FAULT = .keyIndexOutOfRange ∧ OnlyWrites [.fault] s t

/-- 45_input.md R212: with a key pressed the highest pressed index goes to `V[x]` and `pc` advances; with none nothing is
written and `pc` stays on the instruction. -/
def Obligations.KeyWait : Prop :=
  (∀ (s : State) (x : Reg) (k : Fin 16), s.K[k.val] = true → (∀ j : Fin 16, k < j → s.K[j.val] = false) →
    ∃ t, exec (.ldVxK x) s = .next t ∧ (t.v x).toNat = k.val ∧ t.pc = s.pc + 2#16 ∧ OnlyWrites [.pc, .v x] s t) ∧
  ∀ (s : State) (x : Reg), (∀ k : Fin 16, s.K[k.val] = false) → exec (.ldVxK x) s = .next s

/-- 70_reset_and_hazards.md R298, 40_cycle_driver.md R107 (derived in the spec; pattern PRESUMED, log 6): while no key is
pressed the wait repeats, and each repetition ticks both timers. -/
def Obligations.KeyWaitRepeatsAndTicks : Prop :=
  ∀ (s : State) (x : Reg), s.about (0xF#4 ++ x ++ 0x0A#8 : Word) → (∀ k : Fin 16, s.K[k.val] = false) →
    ∃ t, step s = .next t ∧ t.about (0xF#4 ++ x ++ 0x0A#8 : Word) ∧ t.pc = s.pc ∧
      t.DT.toNat = s.DT.toNat - 1 ∧ t.ST.toNat = s.ST.toNat - 1 ∧
      OnlyWrites [.ir, .unknown, .soundExpired, .dt, .st] s t

/-! ### Framebuffer -/

/-- 46_display.md R233: the word `00E0` is `CLS`: "for all (c, r): FB(c, r) <- Off; return Advance", `VF` unchanged. -/
def Obligations.ClsClears : Prop :=
  decodeWord 0x00E0#16 = .ok .cls ∧
  ∀ s : State, ∃ t, exec .cls s = .next t ∧ (∀ c r, t.FB.pixel c r = .off) ∧ t.pc = s.pc + 2#16 ∧ t.v VF = s.v VF ∧
    OnlyWrites (.pc :: allPixels) s t

/-- 46_display.md R234, R235, R236: a DRW whose sprite lies in memory toggles exactly the on-screen cells of the sprite's
set bits, from the wrapped origin, and sets `VF` to 1 if one of them was on and to 0 otherwise. The order of reads is
D4 (log 5), the clipping D13 (log 16), the bit order D14 (PRESUMED, log 17). -/
def Obligations.DrwTogglesSprite : Prop :=
  ∀ (s : State) (x y : Reg) (n : Nib), n.toNat = 0 ∨ s.I.toNat + n.toNat - 1 ≤ 0xFFF →
    ∃ t, exec (.drw x y n) s = .next t ∧ t.pc = s.pc + 2#16 ∧
      (∀ c r, s.paints x y n c r → t.FB.pixel c r = if s.FB.pixel c r = .on then .off else .on) ∧
      (∀ c r, ¬ s.paints x y n c r → t.FB.pixel c r = s.FB.pixel c r) ∧
      (t.v VF = 1#8 ∨ t.v VF = 0#8) ∧
      (t.v VF = 1#8 ↔ ∃ c r, s.paints x y n c r ∧ s.FB.pixel c r = .on) ∧
      OnlyWrites (.pc :: .v VF :: allPixels) s t

/-- 46_display.md R234 and conflict C5 (log 29): drawing the same sprite twice restores the framebuffer, and the second
draw reports a collision exactly when the first one turned a pixel on. The spec's corner case "The second draw sets
`VF = 1` if the sprite drew at least one pixel" follows where the sprite's cells were `Off`; the rule's own draw loop
contradicts it elsewhere (log 29). The origin registers are not `VF`, which the first draw writes. What is drawn rests on
D13 (log 16) and on D14 (PRESUMED, log 17). -/
def Obligations.DrwTwiceRestores : Prop :=
  ∀ (s : State) (x y : Reg) (n : Nib), n.toNat = 0 ∨ s.I.toNat + n.toNat - 1 ≤ 0xFFF → x ≠ VF → y ≠ VF →
    ∃ t u, exec (.drw x y n) s = .next t ∧ exec (.drw x y n) t = .next u ∧
      (∀ c r, u.FB.pixel c r = s.FB.pixel c r) ∧
      (u.v VF = 1#8 ↔ ∃ c r, s.paints x y n c r ∧ s.FB.pixel c r = .off)

/-- 46_display.md R231: "toggle is the bitwise XOR of the 32-bit pixel word with 0xFFFFFFFF", with collision output 1
from `On`; the two port values are all zero bits and all one bits. -/
def Obligations.PixelStateMachine : Prop :=
  Pixel.off.word = 0x00000000#32 ∧ Pixel.on.word = 0xFFFFFFFF#32 ∧
  (∀ p : Pixel, p.toggle.1.word = p.word ^^^ 0xFFFFFFFF#32) ∧ (∀ p : Pixel, p.toggle.2 = true ↔ p = .on) ∧
  (∀ c r, Framebuffer.blank.pixel c r = .off) ∧ ∀ c r, State.reset.FB.pixel c r = .off

/-- 46_display.md R232: element `r × 64 + c` of the port is the word of pixel `(c, r)` (row-major by D15, log 18). -/
def Obligations.PortIsRowMajor : Prop :=
  ∀ (s : State) (c : Fin 64) (r : Fin 32) (k : Fin 2048), k.val = r.val * 64 + c.val →
    s.portWord k = if s.FB.pixel c r = .on then 0xFFFFFFFF#32 else 0x00000000#32

/-! ### The host and the end of a run -/

/-- 70_reset_and_hazards.md R291, R292: an image of at most 3584 bytes (C2, log 29) goes to 0x200 and up and nothing else
changes; a longer one fails with nothing written. -/
def Obligations.LoaderCopiesOrRefuses : Prop :=
  ∀ (s : State) (image : List Byte),
    (3584 < image.length → s.hostLoad image = .error .programTooLarge) ∧
    (image.length ≤ 3584 → ∃ t, s.hostLoad image = .ok t ∧ OnlyWrites (memBlock 0x200 image.length) s t ∧
      (s.M.wf → t.M.wf ∧ ∀ k, (h : k < image.length) → t.M.read (0x200 + k) = image[k]))

/-- 70_reset_and_hazards.md R301 (b): a parked core at an even address stays parked, and a step changes only the timers,
the outputs and `IR`. The definition of parked is the spec's decision D28 (log 26), the pattern
of JP is PRESUMED (D29, log 6). -/
def Obligations.ParkedStaysParked : Prop :=
  ∀ s : State, s.parked → s.pc.toNat % 2 = 0 →
    ∃ t, step s = .next t ∧ t.parked ∧ OnlyWrites [.ir, .unknown, .soundExpired, .dt, .st] s t
end

