-- ==== Sys2Proof/Laws/Decode.lean ====
section
/-! SUPPORT. The fields of a word laid out by the encoder are the ones put in, and a word is laid out from its
own fields (30_encoding.md R71). -/

namespace Sys2Proof

/-- Concatenation as arithmetic (00_scope.md R8: "`hi8 × 256 + lo8`"). -/
theorem append_toNat {m n : Nat} (a : BitVec m) (b : BitVec n) : (a ++ b).toNat = a.toNat * 2 ^ n + b.toNat := by
  rw [BitVec.toNat_append, ← Nat.shiftLeft_add_eq_or_of_lt b.isLt, Nat.shiftLeft_eq]

theorem wordXkk_toNat (op : Nib) (x : Reg) (kk : Byte) :
    (wordXkk op x kk).toNat = op.toNat * 4096 + x.toNat * 256 + kk.toNat := by
  simp only [wordXkk, append_toNat]
  omega

theorem wordXyn_toNat (op : Nib) (x y : Reg) (n : Nib) :
    (wordXyn op x y n).toNat = op.toNat * 4096 + x.toNat * 256 + y.toNat * 16 + n.toNat := by
  simp only [wordXyn, append_toNat]
  omega

theorem wordNnn_toNat (op : Nib) (a : Addr) : (wordNnn op a).toNat = op.toNat * 4096 + a.toNat := by
  simp only [wordNnn, append_toNat]
  omega

theorem opOf_toNat (w : Word) : (opOf w).toNat = w.toNat / 4096 := by
  have := w.isLt
  simp only [opOf, BitVec.extractLsb'_toNat, Nat.shiftRight_eq_div_pow]
  omega

theorem xOf_toNat (w : Word) : (xOf w).toNat = w.toNat / 256 % 16 := by
  simp only [xOf, BitVec.extractLsb'_toNat, Nat.shiftRight_eq_div_pow]

theorem yOf_toNat (w : Word) : (yOf w).toNat = w.toNat / 16 % 16 := by
  simp only [yOf, BitVec.extractLsb'_toNat, Nat.shiftRight_eq_div_pow]

theorem nOf_toNat (w : Word) : (nOf w).toNat = w.toNat % 16 := by
  simp [nOf, BitVec.extractLsb'_toNat]

theorem kkOf_toNat (w : Word) : (kkOf w).toNat = w.toNat % 256 := by
  simp [kkOf, BitVec.extractLsb'_toNat]

theorem nnnOf_toNat (w : Word) : (nnnOf w).toNat = w.toNat % 4096 := by
  simp [nnnOf, BitVec.extractLsb'_toNat]

@[simp] theorem opOf_wordNnn (op : Nib) (a : Addr) : opOf (wordNnn op a) = op := by
  apply BitVec.eq_of_toNat_eq
  have := a.isLt
  rw [opOf_toNat, wordNnn_toNat]; omega

@[simp] theorem nnnOf_wordNnn (op : Nib) (a : Addr) : nnnOf (wordNnn op a) = a := by
  apply BitVec.eq_of_toNat_eq
  have := a.isLt
  rw [nnnOf_toNat, wordNnn_toNat]; omega

@[simp] theorem opOf_wordXkk (op : Nib) (x : Reg) (kk : Byte) : opOf (wordXkk op x kk) = op := by
  apply BitVec.eq_of_toNat_eq
  have := x.isLt; have := kk.isLt
  rw [opOf_toNat, wordXkk_toNat]; omega

@[simp] theorem xOf_wordXkk (op : Nib) (x : Reg) (kk : Byte) : xOf (wordXkk op x kk) = x := by
  apply BitVec.eq_of_toNat_eq
  have := x.isLt; have := kk.isLt
  rw [xOf_toNat, wordXkk_toNat]; omega

@[simp] theorem kkOf_wordXkk (op : Nib) (x : Reg) (kk : Byte) : kkOf (wordXkk op x kk) = kk := by
  apply BitVec.eq_of_toNat_eq
  have := x.isLt; have := kk.isLt
  rw [kkOf_toNat, wordXkk_toNat]; omega

@[simp] theorem opOf_wordXyn (op : Nib) (x y : Reg) (n : Nib) : opOf (wordXyn op x y n) = op := by
  apply BitVec.eq_of_toNat_eq
  have := x.isLt; have := y.isLt; have := n.isLt
  rw [opOf_toNat, wordXyn_toNat]; omega

@[simp] theorem xOf_wordXyn (op : Nib) (x y : Reg) (n : Nib) : xOf (wordXyn op x y n) = x := by
  apply BitVec.eq_of_toNat_eq
  have := x.isLt; have := y.isLt; have := n.isLt
  rw [xOf_toNat, wordXyn_toNat]; omega

@[simp] theorem yOf_wordXyn (op : Nib) (x y : Reg) (n : Nib) : yOf (wordXyn op x y n) = y := by
  apply BitVec.eq_of_toNat_eq
  have := x.isLt; have := y.isLt; have := n.isLt
  rw [yOf_toNat, wordXyn_toNat]; omega

@[simp] theorem nOf_wordXyn (op : Nib) (x y : Reg) (n : Nib) : nOf (wordXyn op x y n) = n := by
  apply BitVec.eq_of_toNat_eq
  have := x.isLt; have := y.isLt; have := n.isLt
  rw [nOf_toNat, wordXyn_toNat]; omega

/-- A word is its op and its `nnn`. -/
theorem wordNnn_fields (w : Word) : wordNnn (opOf w) (nnnOf w) = w := by
  apply BitVec.eq_of_toNat_eq
  rw [wordNnn_toNat, opOf_toNat, nnnOf_toNat]; omega

/-- A word is its op, its `x` and its `kk`. -/
theorem wordXkk_fields (w : Word) : wordXkk (opOf w) (xOf w) (kkOf w) = w := by
  apply BitVec.eq_of_toNat_eq
  have := w.isLt
  rw [wordXkk_toNat, opOf_toNat, xOf_toNat, kkOf_toNat]; omega

/-- A word is its op, its `x`, its `y` and its `n`. -/
theorem wordXyn_fields (w : Word) : wordXyn (opOf w) (xOf w) (yOf w) (nOf w) = w := by
  apply BitVec.eq_of_toNat_eq
  have := w.isLt
  rw [wordXyn_toNat, opOf_toNat, xOf_toNat, yOf_toNat, nOf_toNat]; omega

/-- Two bytes put together and taken apart again. -/
theorem word_of_bytes (w : Word) : (w.extractLsb' 8 8 ++ w.extractLsb' 0 8 : Word) = w := by
  apply BitVec.eq_of_toNat_eq
  have := w.isLt
  simp only [append_toNat, BitVec.extractLsb'_toNat, Nat.shiftRight_eq_div_pow]
  omega

end Sys2Proof
end

