-- ==== Sys2Proof/Laws/State.lean ====
section
/-! SUPPORT. What each named update of the state does to each field: one lemma per field and update, true by
unfolding the update, so that no later proof unfolds one. -/

namespace Sys2Proof.Machine

variable (s : State)

/-! ### setM -/

@[simp] theorem State.setM_V (m : Memory) : (s.setM m).V = s.V := rfl
@[simp] theorem State.setM_M (m : Memory) : (s.setM m).M = m := rfl
@[simp] theorem State.setM_I (m : Memory) : (s.setM m).I = s.I := rfl
@[simp] theorem State.setM_pc (m : Memory) : (s.setM m).pc = s.pc := rfl
@[simp] theorem State.setM_S (m : Memory) : (s.setM m).S = s.S := rfl
@[simp] theorem State.setM_SP (m : Memory) : (s.setM m).SP = s.SP := rfl
@[simp] theorem State.setM_DT (m : Memory) : (s.setM m).DT = s.DT := rfl
@[simp] theorem State.setM_ST (m : Memory) : (s.setM m).ST = s.ST := rfl
@[simp] theorem State.setM_K (m : Memory) : (s.setM m).K = s.K := rfl
@[simp] theorem State.setM_FB (m : Memory) : (s.setM m).FB = s.FB := rfl
@[simp] theorem State.setM_IR (m : Memory) : (s.setM m).IR = s.IR := rfl
@[simp] theorem State.setM_FAULT (m : Memory) : (s.setM m).FAULT = s.FAULT := rfl
@[simp] theorem State.setM_draws (m : Memory) : (s.setM m).draws = s.draws := rfl
@[simp] theorem State.setM_unknown (m : Memory) : (s.setM m).unknown = s.unknown := rfl
@[simp] theorem State.setM_soundExpired (m : Memory) : (s.setM m).soundExpired = s.soundExpired := rfl
@[simp] theorem State.setM_v (m : Memory) (y : Reg) : (s.setM m).v y = s.v y := rfl

/-! ### setV -/

@[simp] theorem State.setV_V (x : Reg) (b : Byte) : (s.setV x b).V = s.V.set x.toNat b x.isLt := rfl
@[simp] theorem State.setV_M (x : Reg) (b : Byte) : (s.setV x b).M = s.M := rfl
@[simp] theorem State.setV_I (x : Reg) (b : Byte) : (s.setV x b).I = s.I := rfl
@[simp] theorem State.setV_pc (x : Reg) (b : Byte) : (s.setV x b).pc = s.pc := rfl
@[simp] theorem State.setV_S (x : Reg) (b : Byte) : (s.setV x b).S = s.S := rfl
@[simp] theorem State.setV_SP (x : Reg) (b : Byte) : (s.setV x b).SP = s.SP := rfl
@[simp] theorem State.setV_DT (x : Reg) (b : Byte) : (s.setV x b).DT = s.DT := rfl
@[simp] theorem State.setV_ST (x : Reg) (b : Byte) : (s.setV x b).ST = s.ST := rfl
@[simp] theorem State.setV_K (x : Reg) (b : Byte) : (s.setV x b).K = s.K := rfl
@[simp] theorem State.setV_FB (x : Reg) (b : Byte) : (s.setV x b).FB = s.FB := rfl
@[simp] theorem State.setV_IR (x : Reg) (b : Byte) : (s.setV x b).IR = s.IR := rfl
@[simp] theorem State.setV_FAULT (x : Reg) (b : Byte) : (s.setV x b).FAULT = s.FAULT := rfl
@[simp] theorem State.setV_draws (x : Reg) (b : Byte) : (s.setV x b).draws = s.draws := rfl
@[simp] theorem State.setV_unknown (x : Reg) (b : Byte) : (s.setV x b).unknown = s.unknown := rfl
@[simp] theorem State.setV_soundExpired (x : Reg) (b : Byte) : (s.setV x b).soundExpired = s.soundExpired := rfl

/-! ### setVs -/

@[simp] theorem State.setVs_V (bs : List Byte) : (s.setVs bs).V = Vector.ofFn fun k => bs.getD k.val (s.V[k.val]'k.isLt) := rfl
@[simp] theorem State.setVs_M (bs : List Byte) : (s.setVs bs).M = s.M := rfl
@[simp] theorem State.setVs_I (bs : List Byte) : (s.setVs bs).I = s.I := rfl
@[simp] theorem State.setVs_pc (bs : List Byte) : (s.setVs bs).pc = s.pc := rfl
@[simp] theorem State.setVs_S (bs : List Byte) : (s.setVs bs).S = s.S := rfl
@[simp] theorem State.setVs_SP (bs : List Byte) : (s.setVs bs).SP = s.SP := rfl
@[simp] theorem State.setVs_DT (bs : List Byte) : (s.setVs bs).DT = s.DT := rfl
@[simp] theorem State.setVs_ST (bs : List Byte) : (s.setVs bs).ST = s.ST := rfl
@[simp] theorem State.setVs_K (bs : List Byte) : (s.setVs bs).K = s.K := rfl
@[simp] theorem State.setVs_FB (bs : List Byte) : (s.setVs bs).FB = s.FB := rfl
@[simp] theorem State.setVs_IR (bs : List Byte) : (s.setVs bs).IR = s.IR := rfl
@[simp] theorem State.setVs_FAULT (bs : List Byte) : (s.setVs bs).FAULT = s.FAULT := rfl
@[simp] theorem State.setVs_draws (bs : List Byte) : (s.setVs bs).draws = s.draws := rfl
@[simp] theorem State.setVs_unknown (bs : List Byte) : (s.setVs bs).unknown = s.unknown := rfl
@[simp] theorem State.setVs_soundExpired (bs : List Byte) : (s.setVs bs).soundExpired = s.soundExpired := rfl

/-! ### setI -/

@[simp] theorem State.setI_V (w : Word) : (s.setI w).V = s.V := rfl
@[simp] theorem State.setI_M (w : Word) : (s.setI w).M = s.M := rfl
@[simp] theorem State.setI_I (w : Word) : (s.setI w).I = w := rfl
@[simp] theorem State.setI_pc (w : Word) : (s.setI w).pc = s.pc := rfl
@[simp] theorem State.setI_S (w : Word) : (s.setI w).S = s.S := rfl
@[simp] theorem State.setI_SP (w : Word) : (s.setI w).SP = s.SP := rfl
@[simp] theorem State.setI_DT (w : Word) : (s.setI w).DT = s.DT := rfl
@[simp] theorem State.setI_ST (w : Word) : (s.setI w).ST = s.ST := rfl
@[simp] theorem State.setI_K (w : Word) : (s.setI w).K = s.K := rfl
@[simp] theorem State.setI_FB (w : Word) : (s.setI w).FB = s.FB := rfl
@[simp] theorem State.setI_IR (w : Word) : (s.setI w).IR = s.IR := rfl
@[simp] theorem State.setI_FAULT (w : Word) : (s.setI w).FAULT = s.FAULT := rfl
@[simp] theorem State.setI_draws (w : Word) : (s.setI w).draws = s.draws := rfl
@[simp] theorem State.setI_unknown (w : Word) : (s.setI w).unknown = s.unknown := rfl
@[simp] theorem State.setI_soundExpired (w : Word) : (s.setI w).soundExpired = s.soundExpired := rfl
@[simp] theorem State.setI_v (w : Word) (y : Reg) : (s.setI w).v y = s.v y := rfl

/-! ### setDT -/

@[simp] theorem State.setDT_V (b : Byte) : (s.setDT b).V = s.V := rfl
@[simp] theorem State.setDT_M (b : Byte) : (s.setDT b).M = s.M := rfl
@[simp] theorem State.setDT_I (b : Byte) : (s.setDT b).I = s.I := rfl
@[simp] theorem State.setDT_pc (b : Byte) : (s.setDT b).pc = s.pc := rfl
@[simp] theorem State.setDT_S (b : Byte) : (s.setDT b).S = s.S := rfl
@[simp] theorem State.setDT_SP (b : Byte) : (s.setDT b).SP = s.SP := rfl
@[simp] theorem State.setDT_DT (b : Byte) : (s.setDT b).DT = b := rfl
@[simp] theorem State.setDT_ST (b : Byte) : (s.setDT b).ST = s.ST := rfl
@[simp] theorem State.setDT_K (b : Byte) : (s.setDT b).K = s.K := rfl
@[simp] theorem State.setDT_FB (b : Byte) : (s.setDT b).FB = s.FB := rfl
@[simp] theorem State.setDT_IR (b : Byte) : (s.setDT b).IR = s.IR := rfl
@[simp] theorem State.setDT_FAULT (b : Byte) : (s.setDT b).FAULT = s.FAULT := rfl
@[simp] theorem State.setDT_draws (b : Byte) : (s.setDT b).draws = s.draws := rfl
@[simp] theorem State.setDT_unknown (b : Byte) : (s.setDT b).unknown = s.unknown := rfl
@[simp] theorem State.setDT_soundExpired (b : Byte) : (s.setDT b).soundExpired = s.soundExpired := rfl
@[simp] theorem State.setDT_v (b : Byte) (y : Reg) : (s.setDT b).v y = s.v y := rfl

/-! ### setST -/

@[simp] theorem State.setST_V (b : Byte) : (s.setST b).V = s.V := rfl
@[simp] theorem State.setST_M (b : Byte) : (s.setST b).M = s.M := rfl
@[simp] theorem State.setST_I (b : Byte) : (s.setST b).I = s.I := rfl
@[simp] theorem State.setST_pc (b : Byte) : (s.setST b).pc = s.pc := rfl
@[simp] theorem State.setST_S (b : Byte) : (s.setST b).S = s.S := rfl
@[simp] theorem State.setST_SP (b : Byte) : (s.setST b).SP = s.SP := rfl
@[simp] theorem State.setST_DT (b : Byte) : (s.setST b).DT = s.DT := rfl
@[simp] theorem State.setST_ST (b : Byte) : (s.setST b).ST = b := rfl
@[simp] theorem State.setST_K (b : Byte) : (s.setST b).K = s.K := rfl
@[simp] theorem State.setST_FB (b : Byte) : (s.setST b).FB = s.FB := rfl
@[simp] theorem State.setST_IR (b : Byte) : (s.setST b).IR = s.IR := rfl
@[simp] theorem State.setST_FAULT (b : Byte) : (s.setST b).FAULT = s.FAULT := rfl
@[simp] theorem State.setST_draws (b : Byte) : (s.setST b).draws = s.draws := rfl
@[simp] theorem State.setST_unknown (b : Byte) : (s.setST b).unknown = s.unknown := rfl
@[simp] theorem State.setST_soundExpired (b : Byte) : (s.setST b).soundExpired = s.soundExpired := rfl
@[simp] theorem State.setST_v (b : Byte) (y : Reg) : (s.setST b).v y = s.v y := rfl

/-! ### setStack -/

@[simp] theorem State.setStack_V (slots : Vector Word 16) (sp : Fin 17) : (s.setStack slots sp).V = s.V := rfl
@[simp] theorem State.setStack_M (slots : Vector Word 16) (sp : Fin 17) : (s.setStack slots sp).M = s.M := rfl
@[simp] theorem State.setStack_I (slots : Vector Word 16) (sp : Fin 17) : (s.setStack slots sp).I = s.I := rfl
@[simp] theorem State.setStack_pc (slots : Vector Word 16) (sp : Fin 17) : (s.setStack slots sp).pc = s.pc := rfl
@[simp] theorem State.setStack_S (slots : Vector Word 16) (sp : Fin 17) : (s.setStack slots sp).S = slots := rfl
@[simp] theorem State.setStack_SP (slots : Vector Word 16) (sp : Fin 17) : (s.setStack slots sp).SP = sp := rfl
@[simp] theorem State.setStack_DT (slots : Vector Word 16) (sp : Fin 17) : (s.setStack slots sp).DT = s.DT := rfl
@[simp] theorem State.setStack_ST (slots : Vector Word 16) (sp : Fin 17) : (s.setStack slots sp).ST = s.ST := rfl
@[simp] theorem State.setStack_K (slots : Vector Word 16) (sp : Fin 17) : (s.setStack slots sp).K = s.K := rfl
@[simp] theorem State.setStack_FB (slots : Vector Word 16) (sp : Fin 17) : (s.setStack slots sp).FB = s.FB := rfl
@[simp] theorem State.setStack_IR (slots : Vector Word 16) (sp : Fin 17) : (s.setStack slots sp).IR = s.IR := rfl
@[simp] theorem State.setStack_FAULT (slots : Vector Word 16) (sp : Fin 17) : (s.setStack slots sp).FAULT = s.FAULT := rfl
@[simp] theorem State.setStack_draws (slots : Vector Word 16) (sp : Fin 17) : (s.setStack slots sp).draws = s.draws := rfl
@[simp] theorem State.setStack_unknown (slots : Vector Word 16) (sp : Fin 17) : (s.setStack slots sp).unknown = s.unknown := rfl
@[simp] theorem State.setStack_soundExpired (slots : Vector Word 16) (sp : Fin 17) : (s.setStack slots sp).soundExpired = s.soundExpired := rfl
@[simp] theorem State.setStack_v (slots : Vector Word 16) (sp : Fin 17) (y : Reg) : (s.setStack slots sp).v y = s.v y := rfl

/-! ### setFB -/

@[simp] theorem State.setFB_V (fb : Framebuffer) : (s.setFB fb).V = s.V := rfl
@[simp] theorem State.setFB_M (fb : Framebuffer) : (s.setFB fb).M = s.M := rfl
@[simp] theorem State.setFB_I (fb : Framebuffer) : (s.setFB fb).I = s.I := rfl
@[simp] theorem State.setFB_pc (fb : Framebuffer) : (s.setFB fb).pc = s.pc := rfl
@[simp] theorem State.setFB_S (fb : Framebuffer) : (s.setFB fb).S = s.S := rfl
@[simp] theorem State.setFB_SP (fb : Framebuffer) : (s.setFB fb).SP = s.SP := rfl
@[simp] theorem State.setFB_DT (fb : Framebuffer) : (s.setFB fb).DT = s.DT := rfl
@[simp] theorem State.setFB_ST (fb : Framebuffer) : (s.setFB fb).ST = s.ST := rfl
@[simp] theorem State.setFB_K (fb : Framebuffer) : (s.setFB fb).K = s.K := rfl
@[simp] theorem State.setFB_FB (fb : Framebuffer) : (s.setFB fb).FB = fb := rfl
@[simp] theorem State.setFB_IR (fb : Framebuffer) : (s.setFB fb).IR = s.IR := rfl
@[simp] theorem State.setFB_FAULT (fb : Framebuffer) : (s.setFB fb).FAULT = s.FAULT := rfl
@[simp] theorem State.setFB_draws (fb : Framebuffer) : (s.setFB fb).draws = s.draws := rfl
@[simp] theorem State.setFB_unknown (fb : Framebuffer) : (s.setFB fb).unknown = s.unknown := rfl
@[simp] theorem State.setFB_soundExpired (fb : Framebuffer) : (s.setFB fb).soundExpired = s.soundExpired := rfl
@[simp] theorem State.setFB_v (fb : Framebuffer) (y : Reg) : (s.setFB fb).v y = s.v y := rfl

/-! ### setDraws -/

@[simp] theorem State.setDraws_V (k : Nat) : (s.setDraws k).V = s.V := rfl
@[simp] theorem State.setDraws_M (k : Nat) : (s.setDraws k).M = s.M := rfl
@[simp] theorem State.setDraws_I (k : Nat) : (s.setDraws k).I = s.I := rfl
@[simp] theorem State.setDraws_pc (k : Nat) : (s.setDraws k).pc = s.pc := rfl
@[simp] theorem State.setDraws_S (k : Nat) : (s.setDraws k).S = s.S := rfl
@[simp] theorem State.setDraws_SP (k : Nat) : (s.setDraws k).SP = s.SP := rfl
@[simp] theorem State.setDraws_DT (k : Nat) : (s.setDraws k).DT = s.DT := rfl
@[simp] theorem State.setDraws_ST (k : Nat) : (s.setDraws k).ST = s.ST := rfl
@[simp] theorem State.setDraws_K (k : Nat) : (s.setDraws k).K = s.K := rfl
@[simp] theorem State.setDraws_FB (k : Nat) : (s.setDraws k).FB = s.FB := rfl
@[simp] theorem State.setDraws_IR (k : Nat) : (s.setDraws k).IR = s.IR := rfl
@[simp] theorem State.setDraws_FAULT (k : Nat) : (s.setDraws k).FAULT = s.FAULT := rfl
@[simp] theorem State.setDraws_draws (k : Nat) : (s.setDraws k).draws = k := rfl
@[simp] theorem State.setDraws_unknown (k : Nat) : (s.setDraws k).unknown = s.unknown := rfl
@[simp] theorem State.setDraws_soundExpired (k : Nat) : (s.setDraws k).soundExpired = s.soundExpired := rfl
@[simp] theorem State.setDraws_v (k : Nat) (y : Reg) : (s.setDraws k).v y = s.v y := rfl

/-! ### setPc -/

@[simp] theorem State.setPc_V (w : Word) : (s.setPc w).V = s.V := rfl
@[simp] theorem State.setPc_M (w : Word) : (s.setPc w).M = s.M := rfl
@[simp] theorem State.setPc_I (w : Word) : (s.setPc w).I = s.I := rfl
@[simp] theorem State.setPc_pc (w : Word) : (s.setPc w).pc = w := rfl
@[simp] theorem State.setPc_S (w : Word) : (s.setPc w).S = s.S := rfl
@[simp] theorem State.setPc_SP (w : Word) : (s.setPc w).SP = s.SP := rfl
@[simp] theorem State.setPc_DT (w : Word) : (s.setPc w).DT = s.DT := rfl
@[simp] theorem State.setPc_ST (w : Word) : (s.setPc w).ST = s.ST := rfl
@[simp] theorem State.setPc_K (w : Word) : (s.setPc w).K = s.K := rfl
@[simp] theorem State.setPc_FB (w : Word) : (s.setPc w).FB = s.FB := rfl
@[simp] theorem State.setPc_IR (w : Word) : (s.setPc w).IR = s.IR := rfl
@[simp] theorem State.setPc_FAULT (w : Word) : (s.setPc w).FAULT = s.FAULT := rfl
@[simp] theorem State.setPc_draws (w : Word) : (s.setPc w).draws = s.draws := rfl
@[simp] theorem State.setPc_unknown (w : Word) : (s.setPc w).unknown = s.unknown := rfl
@[simp] theorem State.setPc_soundExpired (w : Word) : (s.setPc w).soundExpired = s.soundExpired := rfl
@[simp] theorem State.setPc_v (w : Word) (y : Reg) : (s.setPc w).v y = s.v y := rfl

/-! ### raise -/

@[simp] theorem State.raise_V (c : Cause) : (s.raise c).V = s.V := rfl
@[simp] theorem State.raise_M (c : Cause) : (s.raise c).M = s.M := rfl
@[simp] theorem State.raise_I (c : Cause) : (s.raise c).I = s.I := rfl
@[simp] theorem State.raise_pc (c : Cause) : (s.raise c).pc = s.pc := rfl
@[simp] theorem State.raise_S (c : Cause) : (s.raise c).S = s.S := rfl
@[simp] theorem State.raise_SP (c : Cause) : (s.raise c).SP = s.SP := rfl
@[simp] theorem State.raise_DT (c : Cause) : (s.raise c).DT = s.DT := rfl
@[simp] theorem State.raise_ST (c : Cause) : (s.raise c).ST = s.ST := rfl
@[simp] theorem State.raise_K (c : Cause) : (s.raise c).K = s.K := rfl
@[simp] theorem State.raise_FB (c : Cause) : (s.raise c).FB = s.FB := rfl
@[simp] theorem State.raise_IR (c : Cause) : (s.raise c).IR = s.IR := rfl
@[simp] theorem State.raise_FAULT (c : Cause) : (s.raise c).FAULT = c := rfl
@[simp] theorem State.raise_draws (c : Cause) : (s.raise c).draws = s.draws := rfl
@[simp] theorem State.raise_unknown (c : Cause) : (s.raise c).unknown = s.unknown := rfl
@[simp] theorem State.raise_soundExpired (c : Cause) : (s.raise c).soundExpired = s.soundExpired := rfl
@[simp] theorem State.raise_v (c : Cause) (y : Reg) : (s.raise c).v y = s.v y := rfl

/-! ### setOutputs -/

@[simp] theorem State.setOutputs_V (u e : Bool) : (s.setOutputs u e).V = s.V := rfl
@[simp] theorem State.setOutputs_M (u e : Bool) : (s.setOutputs u e).M = s.M := rfl
@[simp] theorem State.setOutputs_I (u e : Bool) : (s.setOutputs u e).I = s.I := rfl
@[simp] theorem State.setOutputs_pc (u e : Bool) : (s.setOutputs u e).pc = s.pc := rfl
@[simp] theorem State.setOutputs_S (u e : Bool) : (s.setOutputs u e).S = s.S := rfl
@[simp] theorem State.setOutputs_SP (u e : Bool) : (s.setOutputs u e).SP = s.SP := rfl
@[simp] theorem State.setOutputs_DT (u e : Bool) : (s.setOutputs u e).DT = s.DT := rfl
@[simp] theorem State.setOutputs_ST (u e : Bool) : (s.setOutputs u e).ST = s.ST := rfl
@[simp] theorem State.setOutputs_K (u e : Bool) : (s.setOutputs u e).K = s.K := rfl
@[simp] theorem State.setOutputs_FB (u e : Bool) : (s.setOutputs u e).FB = s.FB := rfl
@[simp] theorem State.setOutputs_IR (u e : Bool) : (s.setOutputs u e).IR = s.IR := rfl
@[simp] theorem State.setOutputs_FAULT (u e : Bool) : (s.setOutputs u e).FAULT = s.FAULT := rfl
@[simp] theorem State.setOutputs_draws (u e : Bool) : (s.setOutputs u e).draws = s.draws := rfl
@[simp] theorem State.setOutputs_unknown (u e : Bool) : (s.setOutputs u e).unknown = u := rfl
@[simp] theorem State.setOutputs_soundExpired (u e : Bool) : (s.setOutputs u e).soundExpired = e := rfl
@[simp] theorem State.setOutputs_v (u e : Bool) (y : Reg) : (s.setOutputs u e).v y = s.v y := rfl

/-! ### begin -/

@[simp] theorem State.begin_V (w : Word) (u : Bool) : (s.begin w u).V = s.V := rfl
@[simp] theorem State.begin_M (w : Word) (u : Bool) : (s.begin w u).M = s.M := rfl
@[simp] theorem State.begin_I (w : Word) (u : Bool) : (s.begin w u).I = s.I := rfl
@[simp] theorem State.begin_pc (w : Word) (u : Bool) : (s.begin w u).pc = s.pc := rfl
@[simp] theorem State.begin_S (w : Word) (u : Bool) : (s.begin w u).S = s.S := rfl
@[simp] theorem State.begin_SP (w : Word) (u : Bool) : (s.begin w u).SP = s.SP := rfl
@[simp] theorem State.begin_DT (w : Word) (u : Bool) : (s.begin w u).DT = s.DT := rfl
@[simp] theorem State.begin_ST (w : Word) (u : Bool) : (s.begin w u).ST = s.ST := rfl
@[simp] theorem State.begin_K (w : Word) (u : Bool) : (s.begin w u).K = s.K := rfl
@[simp] theorem State.begin_FB (w : Word) (u : Bool) : (s.begin w u).FB = s.FB := rfl
@[simp] theorem State.begin_IR (w : Word) (u : Bool) : (s.begin w u).IR = w := rfl
@[simp] theorem State.begin_FAULT (w : Word) (u : Bool) : (s.begin w u).FAULT = s.FAULT := rfl
@[simp] theorem State.begin_draws (w : Word) (u : Bool) : (s.begin w u).draws = s.draws := rfl
@[simp] theorem State.begin_unknown (w : Word) (u : Bool) : (s.begin w u).unknown = u := rfl
@[simp] theorem State.begin_soundExpired (w : Word) (u : Bool) : (s.begin w u).soundExpired = false := rfl
@[simp] theorem State.begin_v (w : Word) (u : Bool) (y : Reg) : (s.begin w u).v y = s.v y := rfl

/-! ### tick -/

@[simp] theorem State.tick_V : s.tick.V = s.V := rfl
@[simp] theorem State.tick_M : s.tick.M = s.M := rfl
@[simp] theorem State.tick_I : s.tick.I = s.I := rfl
@[simp] theorem State.tick_pc : s.tick.pc = s.pc := rfl
@[simp] theorem State.tick_S : s.tick.S = s.S := rfl
@[simp] theorem State.tick_SP : s.tick.SP = s.SP := rfl
@[simp] theorem State.tick_DT : s.tick.DT = countdown s.DT := rfl
@[simp] theorem State.tick_ST : s.tick.ST = countdown s.ST := rfl
@[simp] theorem State.tick_K : s.tick.K = s.K := rfl
@[simp] theorem State.tick_FB : s.tick.FB = s.FB := rfl
@[simp] theorem State.tick_IR : s.tick.IR = s.IR := rfl
@[simp] theorem State.tick_FAULT : s.tick.FAULT = s.FAULT := rfl
@[simp] theorem State.tick_draws : s.tick.draws = s.draws := rfl
@[simp] theorem State.tick_unknown : s.tick.unknown = s.unknown := rfl
@[simp] theorem State.tick_soundExpired : s.tick.soundExpired = (s.ST == 1#8) := rfl
@[simp] theorem State.tick_v (y : Reg) : s.tick.v y = s.v y := rfl

/-! ### hostKeys -/

@[simp] theorem State.hostKeys_V (keys : Vector Bool 16) : (s.hostKeys keys).V = s.V := rfl
@[simp] theorem State.hostKeys_M (keys : Vector Bool 16) : (s.hostKeys keys).M = s.M := rfl
@[simp] theorem State.hostKeys_I (keys : Vector Bool 16) : (s.hostKeys keys).I = s.I := rfl
@[simp] theorem State.hostKeys_pc (keys : Vector Bool 16) : (s.hostKeys keys).pc = s.pc := rfl
@[simp] theorem State.hostKeys_S (keys : Vector Bool 16) : (s.hostKeys keys).S = s.S := rfl
@[simp] theorem State.hostKeys_SP (keys : Vector Bool 16) : (s.hostKeys keys).SP = s.SP := rfl
@[simp] theorem State.hostKeys_DT (keys : Vector Bool 16) : (s.hostKeys keys).DT = s.DT := rfl
@[simp] theorem State.hostKeys_ST (keys : Vector Bool 16) : (s.hostKeys keys).ST = s.ST := rfl
@[simp] theorem State.hostKeys_K (keys : Vector Bool 16) : (s.hostKeys keys).K = keys := rfl
@[simp] theorem State.hostKeys_FB (keys : Vector Bool 16) : (s.hostKeys keys).FB = s.FB := rfl
@[simp] theorem State.hostKeys_IR (keys : Vector Bool 16) : (s.hostKeys keys).IR = s.IR := rfl
@[simp] theorem State.hostKeys_FAULT (keys : Vector Bool 16) : (s.hostKeys keys).FAULT = s.FAULT := rfl
@[simp] theorem State.hostKeys_draws (keys : Vector Bool 16) : (s.hostKeys keys).draws = s.draws := rfl
@[simp] theorem State.hostKeys_unknown (keys : Vector Bool 16) : (s.hostKeys keys).unknown = s.unknown := rfl
@[simp] theorem State.hostKeys_soundExpired (keys : Vector Bool 16) : (s.hostKeys keys).soundExpired = s.soundExpired := rfl
@[simp] theorem State.hostKeys_v (keys : Vector Bool 16) (y : Reg) : (s.hostKeys keys).v y = s.v y := rfl

/-! ### hostReset -/

@[simp] theorem State.hostReset_V : s.hostReset.V = State.reset.V := rfl
@[simp] theorem State.hostReset_M : s.hostReset.M = State.reset.M := rfl
@[simp] theorem State.hostReset_I : s.hostReset.I = State.reset.I := rfl
@[simp] theorem State.hostReset_pc : s.hostReset.pc = State.reset.pc := rfl
@[simp] theorem State.hostReset_S : s.hostReset.S = State.reset.S := rfl
@[simp] theorem State.hostReset_SP : s.hostReset.SP = State.reset.SP := rfl
@[simp] theorem State.hostReset_DT : s.hostReset.DT = State.reset.DT := rfl
@[simp] theorem State.hostReset_ST : s.hostReset.ST = State.reset.ST := rfl
@[simp] theorem State.hostReset_K : s.hostReset.K = State.reset.K := rfl
@[simp] theorem State.hostReset_FB : s.hostReset.FB = State.reset.FB := rfl
@[simp] theorem State.hostReset_IR : s.hostReset.IR = State.reset.IR := rfl
@[simp] theorem State.hostReset_FAULT : s.hostReset.FAULT = State.reset.FAULT := rfl
@[simp] theorem State.hostReset_draws : s.hostReset.draws = s.draws := rfl
@[simp] theorem State.hostReset_unknown : s.hostReset.unknown = State.reset.unknown := rfl
@[simp] theorem State.hostReset_soundExpired : s.hostReset.soundExpired = State.reset.soundExpired := rfl
@[simp] theorem State.hostReset_v (y : Reg) : s.hostReset.v y = State.reset.v y := rfl

/-! ### The registers -/

@[simp] theorem State.setV_v (x y : Reg) (b : Byte) : (s.setV x b).v y = if x = y then b else s.v y := by
  simp only [State.v, State.setV, Vector.getElem_set, BitVec.toNat_inj]

@[simp] theorem State.setVs_v (bs : List Byte) (y : Reg) : (s.setVs bs).v y = bs.getD y.toNat (s.v y) := by
  simp [State.v, State.setVs]

end Sys2Proof.Machine
end

