-- ==== Sys2Proof/Laws/Memory.lean ====
section
/-! SUPPORT. Memory: read after write, the canonical form, blocks, and what the block operations can answer. -/

namespace Sys2Proof.Machine

@[simp] theorem Memory.read_nil (a : Nat) : Memory.read [] a = unlisted a := rfl

@[simp] theorem Memory.read_cons (k a : Nat) (v : Byte) (m : Memory) :
    Memory.read ((k, v) :: m) a = if k = a then v else Memory.read m a := rfl

/-- An address that no cell lists reads as unlisted. -/
theorem Memory.read_of_not_listed {m : Memory} {a : Nat} (h : ∀ c ∈ m, c.1 ≠ a) : m.read a = unlisted a := by
  induction m with
  | nil => rfl
  | cons c m ih =>
    have hc := h c (by simp)
    obtain ⟨k, v⟩ := c
    simp only [Memory.read_cons, if_neg hc]
    exact ih fun d hd => h d (by simp [hd])

/-- A write leaves every other address alone, in every memory. -/
theorem Memory.read_write_ne (m : Memory) {a a' : Nat} (b : Byte) (h : a' ≠ a) :
    (m.write a b).read a' = m.read a' := by
  induction m with
  | nil => simp only [Memory.write]; split <;> simp [Ne.symm h]
  | cons c m ih =>
    obtain ⟨k, v⟩ := c
    simp only [Memory.write]
    split
    · split <;> simp [Ne.symm h]
    · split
      · rename_i hk; subst hk; split <;> simp [Ne.symm h]
      · simp [ih]

/-- In canonical memory the address written reads back what was written. -/
theorem Memory.read_write_same {m : Memory} (h : m.Pairwise (fun c d => c.1 < d.1)) (a : Nat) (b : Byte) :
    (m.write a b).read a = b := by
  induction m with
  | nil => simp only [Memory.write]; split <;> simp_all
  | cons c m ih =>
    obtain ⟨k, v⟩ := c
    obtain ⟨hk, hm⟩ := List.pairwise_cons.mp h
    simp only [Memory.write]
    split
    · rename_i hlt
      split
      · rename_i hb
        rw [hb]
        refine Memory.read_of_not_listed fun d hd => ?_
        rcases List.mem_cons.mp hd with rfl | hd
        · exact Nat.ne_of_gt hlt
        · exact Nat.ne_of_gt (Nat.lt_trans hlt (hk d hd))
      · simp
    · split
      · rename_i heq
        subst heq
        split
        · rename_i hb
          rw [hb]
          exact Memory.read_of_not_listed fun d hd => Nat.ne_of_gt (hk d hd)
        · simp
      · rename_i hne
        simp [Ne.symm hne, ih hm]

/-- Every cell of a written memory was there before, or is the one written. -/
theorem Memory.mem_write {m : Memory} {a : Nat} {b : Byte} {c : Host.Cell} (h : c ∈ m.write a b) :
    c ∈ m ∨ (c = (a, b) ∧ b ≠ unlisted a) := by
  induction m with
  | nil => simp only [Memory.write] at h; split at h <;> simp_all
  | cons d m ih =>
    obtain ⟨k, v⟩ := d
    simp only [Memory.write] at h
    split at h
    · split at h
      · exact .inl h
      · rename_i hb
        rcases List.mem_cons.mp h with rfl | h
        · exact .inr ⟨rfl, hb⟩
        · exact .inl h
    · split at h
      · split at h
        · exact .inl (List.mem_cons_of_mem _ h)
        · rename_i hb
          rcases List.mem_cons.mp h with rfl | h
          · exact .inr ⟨rfl, hb⟩
          · exact .inl (List.mem_cons_of_mem _ h)
      · rcases List.mem_cons.mp h with rfl | h
        · exact .inl (by simp)
        · exact (ih h).imp (List.mem_cons_of_mem _) id

/-- A write inside memory keeps the canonical form. -/
theorem Memory.wf_write {m : Memory} (h : m.wf) {a : Nat} (ha : a < Config.memSize) (b : Byte) :
    (m.write a b).wf := by
  refine ⟨?_, fun c hc => ?_⟩
  · have hs := h.1
    clear h
    induction m with
    | nil => simp only [Memory.write]; split <;> simp
    | cons c m ih =>
      obtain ⟨k, v⟩ := c
      obtain ⟨hk, hm⟩ := List.pairwise_cons.mp hs
      simp only [Memory.write]
      split
      · rename_i hlt
        split
        · exact hs
        · refine List.pairwise_cons.mpr ⟨fun d hd => ?_, hs⟩
          rcases List.mem_cons.mp hd with rfl | hd
          · exact hlt
          · exact Nat.lt_trans hlt (hk d hd)
      · split
        · rename_i heq
          subst heq
          split
          · exact hm
          · exact List.pairwise_cons.mpr ⟨hk, hm⟩
        · refine List.pairwise_cons.mpr ⟨fun d hd => ?_, ih hm⟩
          rcases Memory.mem_write hd with hd | ⟨rfl, -⟩
          · exact hk d hd
          · show k < a
            omega
  · rcases Memory.mem_write hc with hc | ⟨rfl, hb⟩
    · exact h.2 c hc
    · exact ⟨ha, hb⟩

/-- The memory of the reset state is canonical. -/
theorem State.reset_wf : State.reset.M.wf := ⟨.nil, by simp [State.reset]⟩

/-! ### Blocks -/

@[simp] theorem Memory.writeAll_nil (m : Memory) (a : Nat) : m.writeAll a [] = m := rfl

@[simp] theorem Memory.writeAll_cons (m : Memory) (a : Nat) (b : Byte) (bs : List Byte) :
    m.writeAll a (b :: bs) = (m.write a b).writeAll (a + 1) bs := rfl

/-- A block write leaves every address outside the block alone, in every memory. -/
theorem Memory.read_writeAll_out (m : Memory) {a a' : Nat} (bs : List Byte)
    (h : a' < a ∨ a + bs.length ≤ a') : (m.writeAll a bs).read a' = m.read a' := by
  induction bs generalizing m a with
  | nil => rfl
  | cons b bs ih =>
    rw [List.length_cons] at h
    rw [Memory.writeAll_cons, ih _ (by omega), Memory.read_write_ne _ _ (by omega)]

/-- A block write inside memory keeps the canonical form. -/
theorem Memory.wf_writeAll {m : Memory} (h : m.wf) {a : Nat} (bs : List Byte)
    (ha : a + bs.length ≤ Config.memSize) : (m.writeAll a bs).wf := by
  induction bs generalizing m a with
  | nil => exact h
  | cons b bs ih =>
    rw [List.length_cons] at ha
    exact ih (Memory.wf_write h (by omega) b) (by omega)

/-- In canonical memory a block reads back what was written. -/
theorem Memory.read_writeAll_in {m : Memory} (h : m.wf) {a : Nat} {bs : List Byte}
    (ha : a + bs.length ≤ Config.memSize) {k : Nat} (hk : k < bs.length) :
    (m.writeAll a bs).read (a + k) = bs[k] := by
  induction bs generalizing m a k with
  | nil => simp at hk
  | cons b bs ih =>
    rw [List.length_cons] at ha hk
    rw [Memory.writeAll_cons]
    cases k with
    | zero =>
      rw [Memory.read_writeAll_out _ _ (by omega)]
      simpa using Memory.read_write_same h.1 a b
    | succ k =>
      have := ih (Memory.wf_write h (a := a) (by omega) b) (a := a + 1) (k := k) (by omega) (by omega)
      rw [show a + (k + 1) = a + 1 + k by omega, this]
      simp

/-! ### What the block operations answer -/

/-- The check before a block is read, in terms of the block's end. -/
theorem loadCheck_eq (a n : Nat) :
    loadCheck a n = if Config.memSize < a + n ∧ 0 < n then .error .dataOutOfRange else .ok () := by
  unfold loadCheck Config.memSize
  split <;> split <;> first | rfl | omega

/-- Inside memory the bytes of a block are read in order. -/
theorem State.readList_eq (s : State) (a n : Nat) (h : n = 0 ∨ a + n ≤ Config.memSize) :
    s.readList a n = .ok ((List.range n).map fun k => s.M.read (a + k)) := by
  induction n generalizing a with
  | zero => rfl
  | succ n ih =>
    have ha : ¬ Config.memSize ≤ a := by omega
    simp only [State.readList, State.memRead, if_neg ha, ih (a + 1) (by omega)]
    simp only [List.range_succ_eq_map, List.map_cons, List.map_map]
    refine congrArg Except.ok (congrArg₂ List.cons rfl (List.map_congr_left fun k _ => ?_))
    simp only [Function.comp, Nat.succ_eq_add_one]
    congr 1
    omega

/-- Reading a block: `DATA_OUT_OF_RANGE` when it is not empty and leaves memory, else its bytes in order. -/
theorem State.loadBytes_eq (s : State) (a n : Nat) :
    s.loadBytes a n = if Config.memSize < a + n ∧ 0 < n then .error .dataOutOfRange
      else .ok ((List.range n).map fun k => s.M.read (a + k)) := by
  unfold State.loadBytes
  rw [loadCheck_eq]
  split
  · rfl
  · exact s.readList_eq a n (by omega)

/-- Inside memory and outside the font, the bytes of a block are written in order. -/
theorem State.writeList_eq (s : State) (a : Nat) (bs : List Byte) (h : a + bs.length ≤ Config.memSize)
    (hf : ∀ k < bs.length, ¬ inFont (a + k)) : s.writeList a bs = .ok (s.setM (s.M.writeAll a bs)) := by
  induction bs generalizing s a with
  | nil => rfl
  | cons b bs ih =>
    rw [List.length_cons] at h hf
    have ha : ¬ Config.memSize ≤ a := by omega
    have h0 : ¬ inFont a := hf 0 (by omega)
    simp only [State.writeList, State.memWrite, if_neg ha, if_neg h0]
    have := ih (s.setM (s.M.write a b)) (a + 1) (by omega) fun k hk => by
      have := hf (k + 1) (by omega)
      rwa [show a + (k + 1) = a + 1 + k by omega] at this
    exact this

/-- Writing a block: range first, then the font, else its bytes in order, all or nothing (20_memory.md R59). -/
theorem State.storeBytes_eq (s : State) (a : Nat) (bs : List Byte) :
    s.storeBytes a bs = if Config.memSize < a + bs.length then .error .dataOutOfRange
      else if meetsFont a bs.length then .error .fontWrite
      else .ok (s.setM (s.M.writeAll a bs)) := by
  unfold State.storeBytes storeCheck
  have hiff : 0xFFF < a + bs.length - 1 ↔ Config.memSize < a + bs.length := by unfold Config.memSize; omega
  simp only [hiff]
  split
  · rfl
  · split
    · rfl
    · rename_i h1 h2
      exact s.writeList_eq a bs (by omega) fun k hk hin => h2 ⟨k, hk, hin⟩

/-- `MemWrite` then `MemRead`, through the checks (20_memory.md R52, R53). -/
theorem State.memRead_memWrite {s t : State} (h : s.M.wf) {a : Nat} {b : Byte} (ht : s.memWrite a b = .ok t) (a' : Nat) :
    t.memRead a' = if a' = a then .ok b else s.memRead a' := by
  unfold State.memWrite at ht
  split at ht
  · cases ht
  · split at ht
    · cases ht
    · rename_i ha _
      cases ht
      unfold State.memRead
      by_cases haa : a' = a
      · subst haa
        simp [ha, Memory.read_write_same h.1]
      · simp [haa, Memory.read_write_ne]

end Sys2Proof.Machine
end

