-- ==== Sys2Proof/Laws/Ops.lean ====
section
/-! SUPPORT. What each shared operation other than memory can do, said once: the stack, the keypad, a handler's
end, fetch and the timers; and what each instruction that can fault answers. -/

namespace Sys2Proof.Machine

/-! ### Stack and keypad -/

/-- A push with room. -/
theorem State.push_ok (s : State) (w : Word) (h : s.SP.val < 16) :
    s.push w = .ok (s.setStack (s.S.set s.SP.val w h) ⟨s.SP.val + 1, by omega⟩) := by
  simp [State.push, h]

/-- A push on a full stack. -/
theorem State.push_full (s : State) (w : Word) (h : ¬ s.SP.val < 16) : s.push w = .error .stackOverflow := by
  simp [State.push, h]

/-- A pop of the newest of `k + 1` entries. -/
theorem State.pop_ok (s : State) (k : Fin 16) (h : s.SP.val = k.val + 1) :
    s.pop = .ok (s.setStack s.S ⟨k.val, by omega⟩, s.S[k.val]) := by
  have h0 : ¬ s.SP.val = 0 := by omega
  have hk : s.SP.val - 1 = k.val := by omega
  simp [State.pop, h0, hk]

/-- A pop with nothing pushed. -/
theorem State.pop_empty (s : State) (h : s.SP.val = 0) : s.pop = .error .stackUnderflow := by
  simp [State.pop, h]

/-- A key index within the keypad. -/
theorem State.key_ok (s : State) (b : Byte) (h : b.toNat < 16) : s.key b = .ok (s.K[b.toNat]'h) := by
  simp [State.key, h]

/-- A key index beyond the keypad. -/
theorem State.key_out (s : State) (b : Byte) (h : ¬ b.toNat < 16) : s.key b = .error .keyIndexOutOfRange := by
  simp [State.key, h]

/-- The scan finds an index exactly when it is the highest pressed one below `n`. -/
theorem scanKeys_eq_some {keys : Vector Bool 16} {n k : Nat} (hn : n ≤ 16) :
    scanKeys keys n = some k ↔ k < n ∧ keys[k]? = some true ∧ ∀ j, k < j → j < n → keys[j]? = some false := by
  induction n with
  | zero => simp [scanKeys]
  | succ n ih =>
    have hlt : n < 16 := by omega
    have hsome : keys[n]? = some keys[n] := Vector.getElem?_eq_getElem hlt
    simp only [scanKeys, hsome, Option.getD_some]
    by_cases hp : keys[n] = true
    · rw [if_pos hp]
      constructor
      · intro h
        cases h
        exact ⟨by omega, by rw [hsome, hp], fun j h1 h2 => by omega⟩
      · rintro ⟨h1, h2, h3⟩
        by_contra hne
        have hkn : k < n := by
          rcases Nat.lt_succ_iff_lt_or_eq.mp h1 with h | h
          · exact h
          · exact absurd (by rw [h]) hne
        have := h3 n hkn (by omega)
        rw [hsome, hp] at this
        cases this
    · have hf : keys[n] = false := by simpa using hp
      rw [if_neg hp, ih (by omega)]
      constructor
      · rintro ⟨h1, h2, h3⟩
        refine ⟨by omega, h2, fun j hj hj' => ?_⟩
        rcases Nat.lt_succ_iff_lt_or_eq.mp hj' with h | h
        · exact h3 j hj h
        · rw [h, hsome, hf]
      · rintro ⟨h1, h2, h3⟩
        refine ⟨?_, h2, fun j hj hj' => h3 j hj (by omega)⟩
        rcases Nat.lt_succ_iff_lt_or_eq.mp h1 with h | h
        · exact h
        · rw [h, hsome, hf] at h2
          cases h2

/-- The scan finds nothing exactly when no key below `n` is pressed. -/
theorem scanKeys_eq_none {keys : Vector Bool 16} {n : Nat} (hn : n ≤ 16) :
    scanKeys keys n = none ↔ ∀ j < n, keys[j]? = some false := by
  induction n with
  | zero => simp [scanKeys]
  | succ n ih =>
    have hlt : n < 16 := by omega
    have hsome : keys[n]? = some keys[n] := Vector.getElem?_eq_getElem hlt
    simp only [scanKeys, hsome, Option.getD_some]
    by_cases hp : keys[n] = true
    · rw [if_pos hp]
      simp only [reduceCtorEq, false_iff, not_forall]
      exact ⟨n, by omega, by rw [hsome, hp]; simp⟩
    · have hf : keys[n] = false := by simpa using hp
      rw [if_neg hp, ih (by omega)]
      refine ⟨fun h j hj => ?_, fun h j hj => h j (by omega)⟩
      rcases Nat.lt_succ_iff_lt_or_eq.mp hj with hj | hj
      · exact h j hj
      · rw [hj, hsome, hf]

/-! ### Timers -/

/-- The countdown goes down by one and stops at 0. -/
theorem countdown_toNat (t : Byte) : (countdown t).toNat = t.toNat - 1 := by
  unfold countdown
  split
  · simp_all
  · rename_i h
    have h0 : t.toNat ≠ 0 := fun h' => h (BitVec.eq_of_toNat_eq h')
    have := t.isLt
    rw [BitVec.toNat_sub]
    simp
    omega

/-! ### The end of a handler -/

@[simp] theorem State.finish_ok (s t : State) (f : Flow) :
    s.finish (.ok (t, f)) = .next (t.setPc (f.next s.pc)) := rfl

@[simp] theorem State.finish_error (s : State) (c : Cause) : s.finish (.error c) = .next (s.raise c) := rfl

@[simp] theorem Flow.next_advance (pc : Word) : Flow.next .advance pc = pc + 2#16 := rfl
@[simp] theorem Flow.next_skip (pc : Word) : Flow.next .skip pc = pc + 4#16 := rfl
@[simp] theorem Flow.next_jump (t pc : Word) : Flow.next (.jump t) pc = t := rfl
@[simp] theorem Flow.next_retry (pc : Word) : Flow.next .retry pc = pc := rfl

/-- Where a skip goes (40_cycle_driver.md R105, R106). -/
theorem skipIf_next (c : Bool) (pc : Word) : (skipIf c).next pc = if c then pc + 4#16 else pc + 2#16 := by
  cases c <;> rfl

/-- Every handler's outcome is applied: the end of a handler is a next state. -/
theorem State.finish_answers (s : State) (h : Handled) : ∃ t, s.finish h = .next t := by
  rcases h with c | ⟨t, f⟩
  · exact ⟨_, rfl⟩
  · exact ⟨_, rfl⟩

/-- Every meaning ends through `finish`. -/
theorem exec_finish (i : Instr) (s : State) : ∃ h, exec i s = s.finish h := by
  cases i <;> simp only [exec, execCls, execRet, execSys, execJp, execCall, execSeImm, execSneImm, execSeReg,
    execLdImm, execAddImm, execLdReg, execOrReg, execAndReg, execXorReg, execAddReg, execSub, execShr, execSubn,
    execShl, execSneReg, execLdI, execJpV0, execRnd, execDrw, execSkp, execSknp, execLdVxDT, execLdVxK, execLdDTVx,
    execLdSTVx, execAddI, execLdF, execLdB, execLdMemVx, execLdVxMem] <;> exact ⟨_, rfl⟩

/-- Every instruction answers a next state, from every state. -/
theorem exec_answers (i : Instr) (s : State) : ∃ t, exec i s = .next t := by
  obtain ⟨h, hh⟩ := exec_finish i s
  rw [hh]
  exact s.finish_answers h

/-! ### What the instructions that can fault answer -/

theorem execRet_ok (s : State) (k : Fin 16) (h : s.SP.val = k.val + 1) :
    execRet s = .next ((s.setStack s.S ⟨k.val, by omega⟩).setPc (s.S[k.val] + 2#16)) := by
  unfold execRet
  rw [s.pop_ok k h]
  rfl

theorem execRet_empty (s : State) (h : s.SP.val = 0) : execRet s = .next (s.raise .stackUnderflow) := by
  unfold execRet
  rw [s.pop_empty h]
  rfl

theorem execCall_ok (nnn : Addr) (s : State) (h : s.SP.val < 16) :
    execCall nnn s = .next ((s.setStack (s.S.set s.SP.val s.pc h) ⟨s.SP.val + 1, by omega⟩).setPc (addrOperand nnn)) := by
  unfold execCall
  rw [s.push_ok _ h]
  rfl

theorem execCall_full (nnn : Addr) (s : State) (h : ¬ s.SP.val < 16) :
    execCall nnn s = .next (s.raise .stackOverflow) := by
  unfold execCall
  rw [s.push_full _ h]
  rfl

theorem execSkp_ok (x : Reg) (s : State) (h : (s.v x).toNat < 16) :
    execSkp x s = .next (s.setPc (if s.K[(s.v x).toNat]'h then s.pc + 4#16 else s.pc + 2#16)) := by
  unfold execSkp
  rw [s.key_ok _ h, ← skipIf_next]
  rfl

theorem execSkp_out (x : Reg) (s : State) (h : ¬ (s.v x).toNat < 16) :
    execSkp x s = .next (s.raise .keyIndexOutOfRange) := by
  unfold execSkp
  rw [s.key_out _ h]
  rfl

theorem execSknp_ok (x : Reg) (s : State) (h : (s.v x).toNat < 16) :
    execSknp x s = .next (s.setPc (if s.K[(s.v x).toNat]'h then s.pc + 2#16 else s.pc + 4#16)) := by
  unfold execSknp
  rw [s.key_ok _ h]
  have : ∀ b : Bool, (if b then s.pc + 2#16 else s.pc + 4#16) = (skipIf (!b)).next s.pc := by
    intro b; cases b <;> rfl
  rw [this]
  rfl

theorem execSknp_out (x : Reg) (s : State) (h : ¬ (s.v x).toNat < 16) :
    execSknp x s = .next (s.raise .keyIndexOutOfRange) := by
  unfold execSknp
  rw [s.key_out _ h]
  rfl

/-- A store instruction: the faults of its block, or the block written and `pc + 2`. -/
theorem finish_store (s : State) (a : Nat) (bs : List Byte) :
    s.finish (do let t ← s.storeBytes a bs; return (t, .advance)) =
      if Config.memSize < a + bs.length then .next (s.raise .dataOutOfRange)
      else if meetsFont a bs.length then .next (s.raise .fontWrite)
      else .next ((s.setM (s.M.writeAll a bs)).setPc (s.pc + 2#16)) := by
  rw [s.storeBytes_eq]
  split
  · rfl
  · split <;> rfl

theorem execLdB_eq (x : Reg) (s : State) :
    execLdB x s = if Config.memSize < s.indexAddr + 3 then .next (s.raise .dataOutOfRange)
      else if meetsFont s.indexAddr 3 then .next (s.raise .fontWrite)
      else .next ((s.setM (s.M.writeAll s.indexAddr (bcdDigits (s.v x)))).setPc (s.pc + 2#16)) :=
  finish_store s s.indexAddr (bcdDigits (s.v x))

@[simp] theorem State.length_vUpTo (s : State) (x : Reg) : (s.vUpTo x).length = x.toNat + 1 := by
  have := x.isLt
  simp [State.vUpTo]
  omega

/-- The `k`-th stored register is `V[k]`. -/
theorem State.getElem_vUpTo (s : State) (x : Reg) {k : Nat} (hk : k < (s.vUpTo x).length) :
    (s.vUpTo x)[k] = s.v (BitVec.ofNat 4 k) := by
  have hx := x.isLt
  rw [s.length_vUpTo] at hk
  have hk16 : k % 16 = k := Nat.mod_eq_of_lt (by omega)
  simp [State.vUpTo, State.v, hk16]

theorem execLdMemVx_eq (x : Reg) (s : State) :
    execLdMemVx x s = if Config.memSize < s.indexAddr + (x.toNat + 1) then .next (s.raise .dataOutOfRange)
      else if meetsFont s.indexAddr (x.toNat + 1) then .next (s.raise .fontWrite)
      else .next ((s.setM (s.M.writeAll s.indexAddr (s.vUpTo x))).setPc (s.pc + 2#16)) := by
  have := finish_store s s.indexAddr (s.vUpTo x)
  rw [s.length_vUpTo] at this
  exact this

/-- The bytes of a block, in order. -/
def State.blockAt (s : State) (a n : Nat) : List Byte := (List.range n).map fun k => s.M.read (a + k)

@[simp] theorem State.length_blockAt (s : State) (a n : Nat) : (s.blockAt a n).length = n := by
  simp [State.blockAt]

theorem State.getD_blockAt (s : State) (a n k : Nat) (d : Byte) :
    (s.blockAt a n).getD k d = if k < n then s.M.read (a + k) else d := by
  unfold State.blockAt
  split
  · rename_i h; simp [List.getD_eq_getElem?_getD, h]
  · rename_i h
    rw [List.getD_eq_default]
    simpa using h

theorem execLdVxMem_eq (x : Reg) (s : State) :
    execLdVxMem x s = if Config.memSize < s.indexAddr + (x.toNat + 1) then .next (s.raise .dataOutOfRange)
      else .next ((s.setVs (s.blockAt s.indexAddr (x.toNat + 1))).setPc (s.pc + 2#16)) := by
  unfold execLdVxMem
  rw [s.loadBytes_eq]
  unfold blockCount
  by_cases h : Config.memSize < s.indexAddr + (x.toNat + 1)
  · rw [if_pos ⟨h, by omega⟩, if_pos h]; rfl
  · rw [if_neg (fun h' => h h'.1), if_neg h]; rfl

theorem execDrw_eq (x y : Reg) (n : Nib) (s : State) :
    execDrw x y n s = if Config.memSize < s.indexAddr + n.toNat ∧ 0 < n.toNat then .next (s.raise .dataOutOfRange)
      else
        let drawn := drawRows (s.originX x) (s.originY y) (s.blockAt s.indexAddr n.toNat) (s.FB, false)
        .next (((s.setFB drawn.1).setV VF (flagByte drawn.2)).setPc (s.pc + 2#16)) := by
  unfold execDrw
  rw [s.loadBytes_eq]
  unfold countOperand
  split <;> rfl

/-! ### Operand forms and flags -/

/-- A 12-bit address is zero-extended (30_encoding.md R72). -/
theorem addrOperand_toNat (a : Addr) : (addrOperand a).toNat = a.toNat := by
  have := a.isLt
  simp only [addrOperand, BitVec.toNat_setWidth]
  omega

/-- A block of `n + 1` bytes meets the font table exactly when its last byte is not below it and its first not
above it (20_memory.md R51). -/
theorem meetsFont_iff (a n : Nat) : meetsFont a (n + 1) ↔ 0x050 ≤ a + n ∧ a ≤ 0x09F := by
  simp only [meetsFont, inFont, Config.fontBase, Config.fontSize]
  constructor
  · rintro ⟨k, hk, h⟩; omega
  · intro h
    by_cases ha : 0x050 ≤ a
    · exact ⟨0, by omega, by omega⟩
    · exact ⟨0x050 - a, by omega, by omega⟩

/-- A flag write stores 0 or 1 (10_state.md R22). -/
theorem flagByte_cases (b : Bool) : flagByte b = 1#8 ∨ flagByte b = 0#8 := by cases b <;> decide

theorem flagByte_eq_one (b : Bool) : flagByte b = 1#8 ↔ b = true := by cases b <;> decide

/-- What a flag-setting operation leaves in every register: the result wins over the flag (log 5). -/
theorem State.setFlagThenV_v (s : State) (f : Bool) (x y : Reg) (b : Byte) :
    (s.setFlagThenV f x b).v y = if x = y then b else if VF = y then flagByte f else s.v y := by
  simp [State.setFlagThenV]

/-! ### Fetch -/

theorem State.fetch_of_fetchable {s : State} (h : s.fetchable) :
    s.fetch = .ok (s.M.read s.pc.toNat ++ s.M.read (s.pc.toNat + 1)) := by
  have h1 : ¬ 0xFFE < s.pc.toNat := by have := h.1; omega
  have h2 : ¬ s.pc.toNat % 2 = 1 := by have := h.2; omega
  simp only [State.fetch, if_neg h1, if_neg h2, State.fetchWord]

/-- A fetch succeeds exactly when `pc` is even and within 0xFFE. -/
theorem State.fetch_ok {s : State} {w : Word} (h : s.fetch = .ok w) :
    s.fetchable ∧ s.M.read s.pc.toNat ++ s.M.read (s.pc.toNat + 1) = w := by
  unfold State.fetch at h
  split at h
  · cases h
  · split at h
    · cases h
    · cases h
      exact ⟨⟨by omega, by omega⟩, rfl⟩

end Sys2Proof.Machine
end

