-- ==== Sys2Proof/Laws/Framebuffer.lean ====
section
/-! SUPPORT. The framebuffer: one pixel at a time, and what drawing a sprite does to every pixel and to the
collision flag. -/

namespace Sys2Proof.Machine

/-- A pixel written reads back, every other keeps its value. -/
theorem Framebuffer.pixel_setPixel (fb : Framebuffer) (c c' : Fin 64) (r r' : Fin 32) (p : Pixel) :
    (fb.setPixel c r p).pixel c' r' = if c' = c ∧ r' = r then p else fb.pixel c' r' := by
  unfold Framebuffer.pixel Framebuffer.setPixel
  by_cases hr : r' = r
  · subst hr
    by_cases hc : c' = c
    · subst hc; simp
    · have : c.val ≠ c'.val := fun h => hc (Fin.ext h.symm)
      simp [this, hc]
  · have : r.val ≠ r'.val := fun h => hr (Fin.ext h.symm)
    simp [this, hr]

@[simp] theorem Framebuffer.pixel_blank (c : Fin 64) (r : Fin 32) : Framebuffer.blank.pixel c r = .off := by
  simp [Framebuffer.pixel, Framebuffer.blank]

@[simp] theorem Pixel.toggle_toggle (p : Pixel) : p.toggle.1.toggle.1 = p := by cases p <;> rfl

/-- From `acc` to `acc'` exactly the cells of `P` were toggled, and the collision flag was raised if one of them
was `On`. -/
structure Paints (P : Fin 64 → Fin 32 → Prop) (acc acc' : Framebuffer × Bool) : Prop where
  inside : ∀ c r, P c r → acc'.1.pixel c r = (acc.1.pixel c r).toggle.1
  outside : ∀ c r, ¬ P c r → acc'.1.pixel c r = acc.1.pixel c r
  hit : acc'.2 = true ↔ acc.2 = true ∨ ∃ c r, P c r ∧ acc.1.pixel c r = .on

/-- Nothing painted. -/
theorem Paints.refl (acc : Framebuffer × Bool) {P : Fin 64 → Fin 32 → Prop} (h : ∀ c r, ¬ P c r) :
    Paints P acc acc :=
  ⟨fun c r hp => absurd hp (h c r), fun _ _ _ => rfl, ⟨.inl, fun h' => h'.elim id fun ⟨c, r, hp, _⟩ => absurd hp (h c r)⟩⟩

/-- Two paintings of disjoint cells are one painting of both. -/
theorem Paints.trans {P Q R : Fin 64 → Fin 32 → Prop} {a b c : Framebuffer × Bool} (h₁ : Paints P a b)
    (h₂ : Paints Q b c) (disjoint : ∀ x y, P x y → ¬ Q x y) (union : ∀ x y, R x y ↔ P x y ∨ Q x y) :
    Paints R a c where
  inside x y hr := by
    rcases (union x y).mp hr with hp | hq
    · rw [h₂.outside x y (disjoint x y hp), h₁.inside x y hp]
    · rw [h₂.inside x y hq, h₁.outside x y fun hp => disjoint x y hp hq]
  outside x y hr := by
    have := not_or.mp fun h => hr ((union x y).mpr h)
    rw [h₂.outside x y this.2, h₁.outside x y this.1]
  hit := by
    rw [h₂.hit, h₁.hit, or_assoc]
    refine or_congr Iff.rfl ⟨?_, ?_⟩
    · rintro (⟨x, y, hp, hon⟩ | ⟨x, y, hq, hon⟩)
      · exact ⟨x, y, (union x y).mpr (.inl hp), hon⟩
      · exact ⟨x, y, (union x y).mpr (.inr hq), by rwa [h₁.outside x y fun hp => disjoint x y hp hq] at hon⟩
    · rintro ⟨x, y, hr, hon⟩
      rcases (union x y).mp hr with hp | hq
      · exact .inl ⟨x, y, hp, hon⟩
      · exact .inr ⟨x, y, hq, by rwa [h₁.outside x y fun hp => disjoint x y hp hq]⟩

/-- One bit of a sprite row. -/
theorem drawBit_paints (ox r : Nat) (b : Byte) (acc : Framebuffer × Bool) (j : Nat) :
    Paints (fun c r' => b.getLsbD (7 - j) = true ∧ c.val = ox + j ∧ r'.val = r) acc (drawBit ox r b acc j) := by
  unfold drawBit
  split
  · rename_i hb
    split
    · rename_i h
      refine ⟨fun c r' hp => ?_, fun c r' hp => ?_, ?_⟩
      · have hc : c = ⟨ox + j, h.1⟩ := Fin.ext hp.2.1
        have hr : r' = ⟨r, h.2⟩ := Fin.ext hp.2.2
        subst hc hr
        simp [Framebuffer.pixel_setPixel]
      · have : ¬ (c = ⟨ox + j, h.1⟩ ∧ r' = ⟨r, h.2⟩) := fun hc =>
          hp ⟨hb, congrArg Fin.val hc.1, congrArg Fin.val hc.2⟩
        simp [Framebuffer.pixel_setPixel, this]
      · have htog : ∀ p : Pixel, p.toggle.2 = true ↔ p = .on := by intro p; cases p <;> simp [Pixel.toggle]
        simp only [Bool.or_eq_true, htog]
        refine or_congr Iff.rfl ⟨fun hon => ⟨_, _, ⟨hb, rfl, rfl⟩, hon⟩, ?_⟩
        rintro ⟨c, r', hp, hon⟩
        have hc : c = ⟨ox + j, h.1⟩ := Fin.ext hp.2.1
        have hr : r' = ⟨r, h.2⟩ := Fin.ext hp.2.2
        rwa [hc, hr] at hon
    · rename_i h
      exact Paints.refl acc fun c r' hp => h ⟨by omega, by omega⟩
  · rename_i hb
    exact Paints.refl acc fun c r' hp => hb hp.1

/-- One sprite row. -/
theorem drawRow_paints (ox r : Nat) (b : Byte) (acc : Framebuffer × Bool) :
    Paints (fun c r' => ∃ j < 8, b.getLsbD (7 - j) = true ∧ c.val = ox + j ∧ r'.val = r) acc (drawRow ox r b acc) := by
  have main : ∀ m, Paints (fun c r' => ∃ j < m, b.getLsbD (7 - j) = true ∧ c.val = ox + j ∧ r'.val = r) acc
      ((List.range m).foldl (drawBit ox r b) acc) := by
    intro m
    induction m with
    | zero => exact Paints.refl acc (by simp)
    | succ m ih =>
      rw [List.range_succ, List.foldl_append]
      refine ih.trans (drawBit_paints ox r b _ m) ?_ fun c r' => ⟨?_, ?_⟩
      · rintro c r' ⟨j, hj, -, hc, -⟩ ⟨-, hc', -⟩
        omega
      · rintro ⟨j, hj, hb⟩
        rcases Nat.lt_succ_iff_lt_or_eq.mp hj with hj | rfl
        · exact .inl ⟨j, hj, hb⟩
        · exact .inr hb
      · rintro (⟨j, hj, hb⟩ | hb)
        · exact ⟨j, by omega, hb⟩
        · exact ⟨m, by omega, hb⟩
  exact main 8

/-- The rows of a sprite: the cells whose bit is set and that lie on the grid, each once. -/
theorem drawRows_paints (ox r : Nat) (bs : List Byte) (acc : Framebuffer × Bool) :
    Paints (fun c r' => ∃ j k, j < 8 ∧ k < bs.length ∧ c.val = ox + j ∧ r'.val = r + k ∧
      (bs.getD k 0).getLsbD (7 - j) = true) acc (drawRows ox r bs acc) := by
  induction bs generalizing r acc with
  | nil => exact Paints.refl acc (by simp)
  | cons b bs ih =>
    refine (drawRow_paints ox r b acc).trans (ih (r + 1) _) ?_ fun c r' => ⟨?_, ?_⟩
    · rintro c r' ⟨j, -, -, -, hr⟩ ⟨j', k, -, -, -, hr', -⟩
      omega
    · rintro ⟨j, k, hj, hk, hc, hr, hb⟩
      cases k with
      | zero => exact .inl ⟨j, hj, by simpa using hb, hc, hr⟩
      | succ k => exact .inr ⟨j, k, hj, by simpa using hk, hc, by omega, by simpa using hb⟩
    · rintro (⟨j, hj, hb, hc, hr⟩ | ⟨j, k, hj, hk, hc, hr, hb⟩)
      · exact ⟨j, 0, hj, by simp, hc, hr, by simpa using hb⟩
      · exact ⟨j, k + 1, hj, by simpa using hk, hc, by omega, by simpa using hb⟩

/-- What `DRW` draws, in the words of the statements. -/
theorem drawn_paints (s : State) (x y : Reg) (n : Nib) :
    Paints (s.paints x y n) (s.FB, false)
      (drawRows (s.originX x) (s.originY y) (s.blockAt s.indexAddr n.toNat) (s.FB, false)) := by
  have h := drawRows_paints (s.originX x) (s.originY y) (s.blockAt s.indexAddr n.toNat) (s.FB, false)
  have heq : (fun c r => ∃ j k, j < 8 ∧ k < (s.blockAt s.indexAddr n.toNat).length ∧ c.val = s.originX x + j ∧
      r.val = s.originY y + k ∧ ((s.blockAt s.indexAddr n.toNat).getD k 0).getLsbD (7 - j) = true) = s.paints x y n := by
    funext c r
    simp only [s.length_blockAt, s.getD_blockAt, State.paints, eq_iff_iff]
    refine exists_congr fun j => exists_congr fun k => ?_
    constructor
    · rintro ⟨hj, hk, hc, hr, hb⟩
      rw [if_pos hk] at hb
      exact ⟨hj, hk, hc, hr, hb⟩
    · rintro ⟨hj, hk, hc, hr, hb⟩
      exact ⟨hj, hk, hc, hr, by rw [if_pos hk]; exact hb⟩
  rw [← heq]
  exact h

end Sys2Proof.Machine
end

