-- ==== Sys2Proof/Laws/Frame.lean ====
section
/-! SUPPORT. Frames: how they compose, and the frame of each named update. -/

namespace Sys2Proof.Machine

/-- Nothing written. -/
theorem OnlyWrites.refl (ws : List Loc) (s : State) : OnlyWrites ws s s := by
  intro l _
  cases l <;> rfl

/-- A frame over more places is weaker. -/
theorem OnlyWrites.mono {ws ws' : List Loc} {s t : State} (h : OnlyWrites ws s t) (hsub : ∀ l ∈ ws, l ∈ ws') :
    OnlyWrites ws' s t :=
  fun l hl => h l fun hm => hl (hsub l hm)

/-- A place that holds the same from `s` to `t` and from `t` to `u` holds the same from `s` to `u`. -/
theorem Loc.same_trans {l : Loc} {s t u : State} (h₁ : l.same s t) (h₂ : l.same t u) : l.same s u := by
  cases l <;> exact Eq.trans h₂ h₁

/-- Frames compose. -/
theorem OnlyWrites.trans {ws : List Loc} {s t u : State} (h₁ : OnlyWrites ws s t) (h₂ : OnlyWrites ws t u) :
    OnlyWrites ws s u :=
  fun l hl => Loc.same_trans (h₁ l hl) (h₂ l hl)

variable {ws : List Loc} (s : State)

theorem onlyWrites_setPc (w : Word) (h : .pc ∈ ws) : OnlyWrites ws s (s.setPc w) := by
  intro l hl
  cases l <;> first | rfl | exact absurd h hl

theorem onlyWrites_setI (w : Word) (h : .index ∈ ws) : OnlyWrites ws s (s.setI w) := by
  intro l hl
  cases l <;> first | rfl | exact absurd h hl

theorem onlyWrites_setDT (b : Byte) (h : .dt ∈ ws) : OnlyWrites ws s (s.setDT b) := by
  intro l hl
  cases l <;> first | rfl | exact absurd h hl

theorem onlyWrites_setST (b : Byte) (h : .st ∈ ws) : OnlyWrites ws s (s.setST b) := by
  intro l hl
  cases l <;> first | rfl | exact absurd h hl

theorem onlyWrites_setDraws (k : Nat) (h : .draws ∈ ws) : OnlyWrites ws s (s.setDraws k) := by
  intro l hl
  cases l <;> first | rfl | exact absurd h hl

theorem onlyWrites_raise (c : Cause) (h : .fault ∈ ws) : OnlyWrites ws s (s.raise c) := by
  intro l hl
  cases l <;> first | rfl | exact absurd h hl

theorem onlyWrites_setOutputs (u e : Bool) (h : .unknown ∈ ws) (h' : .soundExpired ∈ ws) :
    OnlyWrites ws s (s.setOutputs u e) := by
  intro l hl
  cases l <;> first | rfl | exact absurd h hl | exact absurd h' hl

theorem onlyWrites_begin (w : Word) (u : Bool) (h₁ : .ir ∈ ws) (h₂ : .unknown ∈ ws) (h₃ : .soundExpired ∈ ws) :
    OnlyWrites ws s (s.begin w u) := by
  intro l hl
  cases l <;> first | rfl | exact absurd h₁ hl | exact absurd h₂ hl | exact absurd h₃ hl

theorem onlyWrites_tick (h₁ : .dt ∈ ws) (h₂ : .st ∈ ws) (h₃ : .soundExpired ∈ ws) : OnlyWrites ws s s.tick := by
  intro l hl
  cases l <;> first | rfl | exact absurd h₁ hl | exact absurd h₂ hl | exact absurd h₃ hl

theorem onlyWrites_setV (x : Reg) (b : Byte) (h : .v x ∈ ws) : OnlyWrites ws s (s.setV x b) := by
  intro l hl
  cases l with
  | v y =>
    have : ¬ x = y := fun he => hl (he ▸ h)
    simp [Loc.same, this]
  | _ => rfl

theorem onlyWrites_setFlagThenV (f : Bool) (x : Reg) (b : Byte) (h : .v x ∈ ws) (h' : .v VF ∈ ws) :
    OnlyWrites ws s (s.setFlagThenV f x b) :=
  (onlyWrites_setV s VF _ h').trans (onlyWrites_setV _ x b h)

theorem onlyWrites_setStack (slots : Vector Word 16) (sp : Fin 17) (h : .sp ∈ ws)
    (hs : ∀ k : Fin 16, .stack k ∉ ws → slots[k.val] = s.S[k.val]) : OnlyWrites ws s (s.setStack slots sp) := by
  intro l hl
  cases l with
  | sp => exact absurd h hl
  | stack k => exact hs k hl
  | _ => rfl

theorem onlyWrites_setFB (fb : Framebuffer) (h : ∀ c r, .pixel c r ∈ ws) : OnlyWrites ws s (s.setFB fb) := by
  intro l hl
  cases l with
  | pixel c r => exact absurd (h c r) hl
  | _ => rfl

theorem mem_allPixels (c : Fin 64) (r : Fin 32) : .pixel c r ∈ allPixels := by
  simp [allPixels]

theorem mem_memBlock {a n k : Nat} (h : k < n) : .mem (a + k) ∈ memBlock a n :=
  List.mem_map.mpr ⟨k, List.mem_range.mpr h, rfl⟩

theorem mem_regsUpTo {x y : Reg} (h : y.toNat ≤ x.toNat) : .v y ∈ regsUpTo x :=
  List.mem_map.mpr ⟨y.toNat, List.mem_range.mpr (by omega), by simp⟩

theorem onlyWrites_setM (m : Memory) (h : ∀ a, .mem a ∉ ws → m.read a = s.M.read a) :
    OnlyWrites ws s (s.setM m) := by
  intro l hl
  cases l with
  | mem a => exact h a hl
  | _ => rfl

/-- A stored block changes no byte outside it. -/
theorem onlyWrites_store {a n : Nat} (bs : List Byte) (hn : bs.length = n) (h : ∀ l ∈ memBlock a n, l ∈ ws) :
    OnlyWrites ws s (s.setM (s.M.writeAll a bs)) := by
  refine onlyWrites_setM s _ fun b hb => Memory.read_writeAll_out _ bs ?_
  by_contra hcon
  obtain ⟨k, rfl⟩ := Nat.exists_eq_add_of_le (show a ≤ b by omega)
  exact hb (h _ (mem_memBlock (by omega)))

/-- A loaded block changes no register above the last one loaded. -/
theorem onlyWrites_setVs (x : Reg) (bs : List Byte) (hn : bs.length = x.toNat + 1) (h : ∀ l ∈ regsUpTo x, l ∈ ws) :
    OnlyWrites ws s (s.setVs bs) := by
  intro l hl
  cases l with
  | v y =>
    have hy : bs.length ≤ y.toNat := by
      by_contra hcon
      exact hl (h _ (mem_regsUpTo (by omega)))
    exact (State.setVs_v s bs y).trans (List.getD_eq_default _ _ hy)
  | _ => simp [Loc.same]

/-! ### The frames of the common handler shapes -/

theorem frame_pc (w : Word) : OnlyWrites [.pc] s (s.setPc w) := onlyWrites_setPc s w (by simp)

theorem frame_raise (c : Cause) : OnlyWrites [.fault] s (s.raise c) := onlyWrites_raise s c (by simp)

theorem frame_setV (x : Reg) (b : Byte) (w : Word) : OnlyWrites [.pc, .v x] s ((s.setV x b).setPc w) :=
  (onlyWrites_setV s x b (by simp)).trans (onlyWrites_setPc _ w (by simp))

theorem frame_setFlagThenV (f : Bool) (x : Reg) (b : Byte) (w : Word) :
    OnlyWrites [.pc, .v x, .v VF] s ((s.setFlagThenV f x b).setPc w) :=
  (onlyWrites_setFlagThenV s f x b (by simp) (by simp)).trans (onlyWrites_setPc _ w (by simp))

end Sys2Proof.Machine
end

