-- ==== Sys2Proof/Laws/PerInstr.lean ====
section
/-! SUPPORT. Statements made of each instruction as syntax, one lemma per constructor. -/

namespace Sys2Proof.Laws

/-- The word of an instruction fits its own row of Table E-1: `(w AND mask) = match` (30_encoding.md R80). -/
def EncodeRow.Statement (i : Instr) : Prop :=
  ∃ e, tableE1[i.row]? = some e ∧ encode i &&& e.1 = e.2

theorem EncodeRow.nnn (op : Nib) (a : Addr) : wordNnn op a &&& 0xF000#16 = wordNnn op 0#12 := by
  apply BitVec.eq_of_getLsbD_eq
  intro i hi
  simp only [wordNnn, BitVec.getLsbD_and, BitVec.getLsbD_append]
  interval_cases i <;> simp

theorem EncodeRow.xkk (op : Nib) (x : Reg) (kk : Byte) : wordXkk op x kk &&& 0xF000#16 = wordNnn op 0#12 := by
  apply BitVec.eq_of_getLsbD_eq
  intro i hi
  simp only [wordXkk, wordNnn, BitVec.getLsbD_and, BitVec.getLsbD_append]
  interval_cases i <;> simp

theorem EncodeRow.xyn (op : Nib) (x y : Reg) (n : Nib) : wordXyn op x y n &&& 0xF000#16 = wordNnn op 0#12 := by
  apply BitVec.eq_of_getLsbD_eq
  intro i hi
  simp only [wordXyn, wordNnn, BitVec.getLsbD_and, BitVec.getLsbD_append]
  interval_cases i <;> simp

theorem EncodeRow.low4 (op : Nib) (x y : Reg) (n : Nib) : wordXyn op x y n &&& 0xF00F#16 = wordXyn op 0#4 0#4 n := by
  apply BitVec.eq_of_getLsbD_eq
  intro i hi
  simp only [wordXyn, BitVec.getLsbD_and, BitVec.getLsbD_append]
  interval_cases i <;> simp

theorem EncodeRow.low8 (op : Nib) (x : Reg) (kk : Byte) : wordXkk op x kk &&& 0xF0FF#16 = wordXkk op 0#4 kk := by
  apply BitVec.eq_of_getLsbD_eq
  intro i hi
  simp only [wordXkk, BitVec.getLsbD_and, BitVec.getLsbD_append]
  interval_cases i <;> simp

theorem EncodeRow.cls : EncodeRow.Statement .cls := ⟨_, rfl, by decide⟩
theorem EncodeRow.ret : EncodeRow.Statement .ret := ⟨_, rfl, by decide⟩
theorem EncodeRow.sys (nnn : Addr) : EncodeRow.Statement (.sys nnn) := ⟨_, rfl, (EncodeRow.nnn _ _).trans (by decide)⟩
theorem EncodeRow.jp (nnn : Addr) : EncodeRow.Statement (.jp nnn) := ⟨_, rfl, (EncodeRow.nnn _ _).trans (by decide)⟩
theorem EncodeRow.call (nnn : Addr) : EncodeRow.Statement (.call nnn) := ⟨_, rfl, (EncodeRow.nnn _ _).trans (by decide)⟩
theorem EncodeRow.seImm (x : Reg) (kk : Byte) : EncodeRow.Statement (.seImm x kk) := ⟨_, rfl, (EncodeRow.xkk _ _ _).trans (by decide)⟩
theorem EncodeRow.sneImm (x : Reg) (kk : Byte) : EncodeRow.Statement (.sneImm x kk) := ⟨_, rfl, (EncodeRow.xkk _ _ _).trans (by decide)⟩
theorem EncodeRow.seReg (x y : Reg) (n : Nib) : EncodeRow.Statement (.seReg x y n) := ⟨_, rfl, (EncodeRow.xyn _ _ _ _).trans (by decide)⟩
theorem EncodeRow.ldImm (x : Reg) (kk : Byte) : EncodeRow.Statement (.ldImm x kk) := ⟨_, rfl, (EncodeRow.xkk _ _ _).trans (by decide)⟩
theorem EncodeRow.addImm (x : Reg) (kk : Byte) : EncodeRow.Statement (.addImm x kk) := ⟨_, rfl, (EncodeRow.xkk _ _ _).trans (by decide)⟩
theorem EncodeRow.ldReg (x y : Reg) : EncodeRow.Statement (.ldReg x y) := ⟨_, rfl, (EncodeRow.low4 _ _ _ _).trans (by decide)⟩
theorem EncodeRow.orReg (x y : Reg) : EncodeRow.Statement (.orReg x y) := ⟨_, rfl, (EncodeRow.low4 _ _ _ _).trans (by decide)⟩
theorem EncodeRow.andReg (x y : Reg) : EncodeRow.Statement (.andReg x y) := ⟨_, rfl, (EncodeRow.low4 _ _ _ _).trans (by decide)⟩
theorem EncodeRow.xorReg (x y : Reg) : EncodeRow.Statement (.xorReg x y) := ⟨_, rfl, (EncodeRow.low4 _ _ _ _).trans (by decide)⟩
theorem EncodeRow.addReg (x y : Reg) : EncodeRow.Statement (.addReg x y) := ⟨_, rfl, (EncodeRow.low4 _ _ _ _).trans (by decide)⟩
theorem EncodeRow.sub (x y : Reg) : EncodeRow.Statement (.sub x y) := ⟨_, rfl, (EncodeRow.low4 _ _ _ _).trans (by decide)⟩
theorem EncodeRow.shr (x y : Reg) : EncodeRow.Statement (.shr x y) := ⟨_, rfl, (EncodeRow.low4 _ _ _ _).trans (by decide)⟩
theorem EncodeRow.subn (x y : Reg) : EncodeRow.Statement (.subn x y) := ⟨_, rfl, (EncodeRow.low4 _ _ _ _).trans (by decide)⟩
theorem EncodeRow.shl (x y : Reg) : EncodeRow.Statement (.shl x y) := ⟨_, rfl, (EncodeRow.low4 _ _ _ _).trans (by decide)⟩
theorem EncodeRow.sneReg (x y : Reg) (n : Nib) : EncodeRow.Statement (.sneReg x y n) := ⟨_, rfl, (EncodeRow.xyn _ _ _ _).trans (by decide)⟩
theorem EncodeRow.ldI (nnn : Addr) : EncodeRow.Statement (.ldI nnn) := ⟨_, rfl, (EncodeRow.nnn _ _).trans (by decide)⟩
theorem EncodeRow.jpV0 (nnn : Addr) : EncodeRow.Statement (.jpV0 nnn) := ⟨_, rfl, (EncodeRow.nnn _ _).trans (by decide)⟩
theorem EncodeRow.rnd (x : Reg) (kk : Byte) : EncodeRow.Statement (.rnd x kk) := ⟨_, rfl, (EncodeRow.xkk _ _ _).trans (by decide)⟩
theorem EncodeRow.drw (x y : Reg) (n : Nib) : EncodeRow.Statement (.drw x y n) := ⟨_, rfl, (EncodeRow.xyn _ _ _ _).trans (by decide)⟩
theorem EncodeRow.skp (x : Reg) : EncodeRow.Statement (.skp x) := ⟨_, rfl, (EncodeRow.low8 _ _ _).trans (by decide)⟩
theorem EncodeRow.sknp (x : Reg) : EncodeRow.Statement (.sknp x) := ⟨_, rfl, (EncodeRow.low8 _ _ _).trans (by decide)⟩
theorem EncodeRow.ldVxDT (x : Reg) : EncodeRow.Statement (.ldVxDT x) := ⟨_, rfl, (EncodeRow.low8 _ _ _).trans (by decide)⟩
theorem EncodeRow.ldVxK (x : Reg) : EncodeRow.Statement (.ldVxK x) := ⟨_, rfl, (EncodeRow.low8 _ _ _).trans (by decide)⟩
theorem EncodeRow.ldDTVx (x : Reg) : EncodeRow.Statement (.ldDTVx x) := ⟨_, rfl, (EncodeRow.low8 _ _ _).trans (by decide)⟩
theorem EncodeRow.ldSTVx (x : Reg) : EncodeRow.Statement (.ldSTVx x) := ⟨_, rfl, (EncodeRow.low8 _ _ _).trans (by decide)⟩
theorem EncodeRow.addI (x : Reg) : EncodeRow.Statement (.addI x) := ⟨_, rfl, (EncodeRow.low8 _ _ _).trans (by decide)⟩
theorem EncodeRow.ldF (x : Reg) : EncodeRow.Statement (.ldF x) := ⟨_, rfl, (EncodeRow.low8 _ _ _).trans (by decide)⟩
theorem EncodeRow.ldB (x : Reg) : EncodeRow.Statement (.ldB x) := ⟨_, rfl, (EncodeRow.low8 _ _ _).trans (by decide)⟩
theorem EncodeRow.ldMemVx (x : Reg) : EncodeRow.Statement (.ldMemVx x) := ⟨_, rfl, (EncodeRow.low8 _ _ _).trans (by decide)⟩
theorem EncodeRow.ldVxMem (x : Reg) : EncodeRow.Statement (.ldVxMem x) := ⟨_, rfl, (EncodeRow.low8 _ _ _).trans (by decide)⟩

end Sys2Proof.Laws
end

