-- ==== Sys2Proof/Laws/Step.lean ====
section
/-! SUPPORT. What a step can do, said once: the four cases of the Cycle Driver, forwards and backwards; and
that the word placed for the next step is the one it fetches. -/

namespace Sys2Proof.Machine

/-- A faulted core (40_cycle_driver.md R101). -/
theorem step_faulted {s : State} (h : s.FAULT ≠ .none) : step s = .next (s.setOutputs false false) := by
  simp only [step, State.cycle, if_neg h]

/-- A fetch fault (R102, R109). -/
theorem step_fetch_error {s : State} {c : Cause} (h : s.running) (hf : s.fetch = .error c) :
    step s = .next ((s.setOutputs false false).raise c) := by
  simp only [step, State.cycle, if_pos h, hf]

/-- A step over a fetched word. -/
theorem step_about {s : State} {w : Word} (h : s.about w) : step s = s.runWord w := by
  have hf := State.fetch_of_fetchable h.2.1
  rw [h.2.2] at hf
  simp only [step, State.cycle, if_pos h.1, hf]

/-- A step over a decoded instruction: `exec` on the state after fetch, then the end of the step. -/
theorem step_decoded {s u : State} {w : Word} {i : Instr} (h : s.about w) (hi : decodeWord w = .ok i)
    (hu : exec i (s.begin w false) = .next u) : step s = .next u.endStep := by
  rw [step_about h]
  simp only [State.runWord, hi, hu, thenNext]

/-- A step over a word that selects no operation (30_encoding.md R79). -/
theorem step_unknown {s : State} {w : Word} {r : Reject} (h : s.about w) (hr : decodeWord w = .error r) :
    step s = .next ((s.begin w true).setPc (s.pc + 2#16)).endStep := by
  rw [step_about h]
  simp only [State.runWord, hr, execUnknown, State.finish_ok, thenNext, Flow.next_advance, State.begin_pc]

/-- Everything a step can do. -/
theorem step_cases {s t : State} (h : step s = .next t) :
    (s.FAULT ≠ .none ∧ t = s.setOutputs false false) ∨
    (s.running ∧ ∃ c, s.fetch = .error c ∧ t = (s.setOutputs false false).raise c) ∨
    (∃ w i u, s.about w ∧ decodeWord w = .ok i ∧ exec i (s.begin w false) = .next u ∧ t = u.endStep) ∨
    (∃ w r, s.about w ∧ decodeWord w = .error r ∧ t = ((s.begin w true).setPc (s.pc + 2#16)).endStep) := by
  by_cases hr : s.running
  · cases hf : s.fetch with
    | error c =>
      rw [step_fetch_error hr hf] at h
      cases h
      exact .inr (.inl ⟨hr, c, rfl, rfl⟩)
    | ok w =>
      obtain ⟨hfe, hw⟩ := State.fetch_ok hf
      have ha : s.about w := ⟨hr, hfe, hw⟩
      cases hd : decodeWord w with
      | ok i =>
        obtain ⟨u, hu⟩ := exec_answers i (s.begin w false)
        rw [step_decoded ha hd hu] at h
        cases h
        exact .inr (.inr (.inl ⟨w, i, u, ha, hd, hu, rfl⟩))
      | error r =>
        rw [step_unknown ha hd] at h
        cases h
        exact .inr (.inr (.inr ⟨w, r, ha, hd, rfl⟩))
  · rw [step_faulted hr] at h
    cases h
    exact .inl ⟨hr, rfl⟩

/-- A faulted handler's step does not tick. -/
theorem State.endStep_faulted {s : State} (h : s.FAULT ≠ .none) : s.endStep = s := if_neg h

/-- Any other does. -/
theorem State.endStep_running {s : State} (h : s.running) : s.endStep = s.tick := if_pos h

/-- The end of a step leaves memory alone. -/
@[simp] theorem State.endStep_M (s : State) : s.endStep.M = s.M := by
  unfold State.endStep
  split <;> rfl

/-- Each tick takes a timer down by one, to 0 at the lowest. -/
theorem State.tick_DT_toNat (s : State) : s.tick.DT.toNat = s.DT.toNat - 1 := countdown_toNat s.DT

theorem State.tick_ST_toNat (s : State) : s.tick.ST.toNat = s.ST.toNat - 1 := countdown_toNat s.ST

/-- What a handler can answer: its writes and a `pc`, or `FAULT` alone. -/
theorem finish_cases {s t : State} {h : Handled} (ht : s.finish h = .next t) :
    (∃ u f, h = .ok (u, f) ∧ t = u.setPc (f.next s.pc)) ∨ (∃ c, h = .error c ∧ t = s.raise c) := by
  rcases h with c | ⟨u, f⟩
  · cases ht; exact .inr ⟨c, rfl, rfl⟩
  · cases ht; exact .inl ⟨u, f, rfl, rfl⟩

/-- The bytes of a placed word are the ones fetched, from canonical memory (20_memory.md R54). -/
theorem State.placeWord_read {s : State} (h : s.M.wf) {p : Nat} (hp : p + 2 ≤ Config.memSize) (w : Word) :
    (s.placeWord p w).M.read p ++ (s.placeWord p w).M.read (p + 1) = w := by
  have h0 := Memory.read_writeAll_in h (bs := [w.extractLsb' 8 8, w.extractLsb' 0 8]) hp (k := 0) (by simp)
  have h1 := Memory.read_writeAll_in h (bs := [w.extractLsb' 8 8, w.extractLsb' 0 8]) hp (k := 1) (by simp)
  simp only [Nat.add_zero, List.getElem_cons_zero, List.getElem_cons_succ] at h0 h1
  simp only [State.placeWord, State.setM_M, h0, h1]
  exact word_of_bytes w

/-- The next step runs exactly the instruction placed for it, from any state with canonical memory (log 25). -/
theorem State.withFetchWord_about {s : State} (h : s.M.wf) (w : Word) : (s.withFetchWord 16 w.toNat).about w := by
  have hw : BitVec.ofNat 16 (w.toNat % 2 ^ 16) = w := by
    apply BitVec.eq_of_toNat_eq
    rw [BitVec.toNat_ofNat, Nat.mod_mod, Nat.mod_eq_of_lt w.isLt]
  unfold State.withFetchWord State.placeNext
  simp only [hw]
  have hbase : (BitVec.ofNat 16 Config.progBase).toNat = 0x200 := by decide
  refine ⟨rfl, ?_, ?_⟩
  · split
    · assumption
    · show (BitVec.ofNat 16 Config.progBase).toNat ≤ 0xFFE ∧ (BitVec.ofNat 16 Config.progBase).toNat % 2 = 0
      decide
  · refine State.placeWord_read (by exact h) ?_ w
    simp only [Config.memSize]
    split
    · omega
    · rw [hbase]; decide

end Sys2Proof.Machine
end

