-- ==== Sys2Proof/Tests/Slice0.lean ====
section
/-! SUPPORT. Tests and witnesses. The expected results are those of spec/95_test_vectors.md (named by its ids) or worked
out by hand from a rule. `witness_<Name>` shows a state and operands that meet the hypotheses of `Obligations.<Name>`,
one per clause where it has several. -/

namespace Sys2Proof.Tests

open Sys2Proof.Machine

/-! ### Helpers -/

/-- The word `w` at address `p`, and `pc` there. -/
def putAt (p : Word) (w : Word) (s : State) : State := ({ s with pc := p }).placeWord p.toNat w

/-- The reset state with `w` at 0x200. -/
def boot (w : Word) : State := putAt 0x200 w State.reset

/-- `o` is a next state and `p` holds of it. -/
def after (o : Host.Outcome State Fault Refusal) (p : State → Bool) : Bool :=
  match o with
  | .next t => p t
  | _ => false

theorem next_of_after {o : Host.Outcome State Fault Refusal} {p : State → Bool} (h : after o p = true) :
    ∃ t, o = .next t ∧ p t = true := by
  unfold after at h
  split at h
  · exact ⟨_, rfl, h⟩
  · cases h

/-- Key `k` alone is pressed. -/
def pressing (k : Nat) : Vector Bool 16 := Vector.ofFn fun j => j.val == k

/-- `SP` entries pushed, all of them `w`. -/
def stacked (sp : Fin 17) (w : Word) (s : State) : State := { s with SP := sp, S := Vector.replicate 16 w }

/-- The reset state with `I` at `w`. -/
def indexed (w : Word) : State := { State.reset with I := w }

/-! ### WellFormed -/

/-- The one check: `SYS 0x0E0` and `SYS 0x0EE` are the words of CLS and RET (30_encoding.md R74), so no instruction. -/
theorem test_wellFormed_refuses : (Instr.sys 0x0E0).wellFormed = false ∧ (Instr.sys 0x0EE).wellFormed = false := by decide

theorem test_wellFormed_admits : (Instr.sys 0x0E1).wellFormed = true ∧ (Instr.drw 15 15 15).wellFormed = true := by decide

/-! ### Decoding: every row of Table E-1 (30_encoding.md R80), its word written out bit by bit -/

theorem test_decode_family_0 :
    decodeWord 0b0000000011100000 = .ok .cls ∧ decodeWord 0b0000000011101110 = .ok .ret ∧
    decodeWord 0b0000000111100000 = .ok (.sys 0x1E0) ∧ decodeWord 0b0000000011100001 = .ok (.sys 0x0E1) := by decide

theorem test_decode_addresses :
    decodeWord 0b0001101010111100 = .ok (.jp 0xABC) ∧ decodeWord 0b0010001000010000 = .ok (.call 0x210) ∧
    decodeWord 0b1010001100000000 = .ok (.ldI 0x300) ∧ decodeWord 0b1011000100100011 = .ok (.jpV0 0x123) := by decide

theorem test_decode_immediates :
    decodeWord 0b0011001101000010 = .ok (.seImm 3 0x42) ∧ decodeWord 0b0100001101000010 = .ok (.sneImm 3 0x42) ∧
    decodeWord 0b0110000011111010 = .ok (.ldImm 0 0xFA) ∧ decodeWord 0b0111000111111111 = .ok (.addImm 1 0xFF) ∧
    decodeWord 0b1100010000001111 = .ok (.rnd 4 0x0F) := by decide

theorem test_decode_pairs :
    decodeWord 0b0101000100100101 = .ok (.seReg 1 2 5) ∧ decodeWord 0b1001101010110111 = .ok (.sneReg 0xA 0xB 7) ∧
    decodeWord 0b1101000100100101 = .ok (.drw 1 2 5) := by decide

theorem test_decode_family_8 :
    decodeWord 0b1000000100100000 = .ok (.ldReg 1 2) ∧ decodeWord 0b1000000100100001 = .ok (.orReg 1 2) ∧
    decodeWord 0b1000000100100010 = .ok (.andReg 1 2) ∧ decodeWord 0b1000000100100011 = .ok (.xorReg 1 2) ∧
    decodeWord 0b1000000100100100 = .ok (.addReg 1 2) ∧ decodeWord 0b1000000100100101 = .ok (.sub 1 2) ∧
    decodeWord 0b1000000100100110 = .ok (.shr 1 2) ∧ decodeWord 0b1000000100100111 = .ok (.subn 1 2) ∧
    decodeWord 0b1000000100101110 = .ok (.shl 1 2) := by decide

theorem test_decode_family_E :
    decodeWord 0b1110010110011110 = .ok (.skp 5) ∧ decodeWord 0b1110010110100001 = .ok (.sknp 5) := by decide

theorem test_decode_family_F :
    decodeWord 0b1111001100000111 = .ok (.ldVxDT 3) ∧ decodeWord 0b1111001000001010 = .ok (.ldVxK 2) ∧
    decodeWord 0b1111000000010101 = .ok (.ldDTVx 0) ∧ decodeWord 0b1111000100011000 = .ok (.ldSTVx 1) ∧
    decodeWord 0b1111001000011110 = .ok (.addI 2) ∧ decodeWord 0b1111000000101001 = .ok (.ldF 0) ∧
    decodeWord 0b1111000000110011 = .ok (.ldB 0) ∧ decodeWord 0b1111001001010101 = .ok (.ldMemVx 2) ∧
    decodeWord 0b1111000101100101 = .ok (.ldVxMem 1) := by decide

/-- T30-11, T30-12, T30-16 to T30-19. -/
theorem test_decode_unknown :
    decodeWord 0x8008 = .error (.family8 8) ∧ decodeWord 0x800F = .error (.family8 0xF) ∧
    decodeWord 0xE09F = .error (.familyE 0x9F) ∧ decodeWord 0xE5A2 = .error (.familyE 0xA2) ∧
    decodeWord 0xF000 = .error (.familyF 0) ∧ decodeWord 0xF0FF = .error (.familyF 0xFF) := by decide

/-- Big-endian, two bytes, the rest kept (20_memory.md R54); one byte is no instruction. -/
theorem test_decode_bytes :
    decode [0x1A, 0xBC, 0x77] = .ok (.jp 0xABC, [0x77]) ∧ decode [0x1A] = .error .truncated ∧
    decodeTableWord 16 0x1ABC = some (.jp 0xABC) ∧ decodeTableWord 16 0xF000 = none := by decide

/-! ### The step -/

/-- T40-1 to T40-3. -/
theorem test_fetch_faults :
    after (step { State.reset with pc := 0x201, DT := 5, IR := 7 })
      (fun t => t.FAULT == .fetchMisaligned && t.pc == 0x201 && t.DT == 5 && t.IR == 7) = true ∧
    after (step { State.reset with pc := 0xFFF }) (fun t => t.FAULT == .fetchOutOfRange) = true ∧
    after (step { State.reset with pc := 0x1000 }) (fun t => t.FAULT == .fetchOutOfRange && t.pc == 0x1000) = true := by
  decide

/-- T40-4. -/
theorem test_last_word : after (step (putAt 0xFFE 0x6001 State.reset))
    (fun t => t.v 0 == 1 && t.pc == 0x1000 && t.FAULT == .none) = true := by decide

/-- T40-5. -/
theorem test_faulted_core : after (step { boot 0x6001 with FAULT := .stackOverflow, DT := 5 })
    (fun t => t.FAULT == .stackOverflow && t.DT == 5 && t.pc == 0x200 && t.v 0 == 0) = true := by decide

/-- T40-7. -/
theorem test_unknown_word : after (step { boot 0xF000 with DT := 2 })
    (fun t => t.pc == 0x202 && t.DT == 1 && t.unknown && t.FAULT == .none) = true := by decide

/-- The word that was placed is the one that runs, also from a faulted core (log 25). -/
theorem test_withFetchWord :
    after (step (State.reset.withFetchWord 16 0x60FA)) (fun t => t.v 0 == 0xFA && t.IR == 0x60FA) = true ∧
    after (step ({ State.reset with pc := 0x1001, FAULT := .fetchOutOfRange }.withFetchWord 16 0x60FA))
      (fun t => t.v 0 == 0xFA) = true := by decide

/-! ### Control flow -/

/-- T40-8. -/
theorem test_sys : after (step { boot 0x0123 with DT := 2 })
    (fun t => t.pc == 0x202 && t.DT == 1 && !t.unknown) = true := by decide

/-- T41-3. -/
theorem test_ret : after (step (stacked 1 0x204 (boot 0x00EE)))
    (fun t => t.pc == 0x206 && t.SP == 0 && t.S[0] == 0x204) = true := by decide

/-- T41-4, T41-5. -/
theorem test_ret_ends :
    after (step { boot 0x00EE with DT := 9 }) (fun t => t.FAULT == .stackUnderflow && t.pc == 0x200 && t.DT == 9) = true ∧
    after (step (stacked 16 0xFFE (boot 0x00EE))) (fun t => t.pc == 0x1000 && t.SP == 15) = true := by decide

/-- T41-6, T41-8. -/
theorem test_jp : after (step (boot 0x1234)) (fun t => t.pc == 0x234) = true ∧
    after (step (boot 0x1301)) (fun t => t.pc == 0x301 && t.FAULT == .none) = true := by decide

/-- T41-9, T41-10. -/
theorem test_call :
    after (step (putAt 0x204 0x2210 State.reset)) (fun t => t.pc == 0x210 && t.SP == 1 && t.S[0] == 0x204) = true ∧
    after (step (stacked 15 0x300 (boot 0x2300))) (fun t => t.pc == 0x300 && t.SP == 16 && t.S[15] == 0x200) = true := by
  decide

/-- T40-6. -/
theorem test_call_full : after (step { stacked 16 0x300 (boot 0x2300) with DT := 5 })
    (fun t => t.FAULT == .stackOverflow && t.IR == 0x2300 && t.pc == 0x200 && t.DT == 5 && t.SP == 16) = true := by decide

/-- T41-12, T41-13. -/
theorem test_seImm : after (step ((boot 0x3342).setV 3 0x42)) (fun t => t.pc == 0x204) = true ∧
    after (step ((boot 0x3342).setV 3 0x41)) (fun t => t.pc == 0x202) = true := by decide

/-- T41-14, T41-15. -/
theorem test_sneImm : after (step ((boot 0x4342).setV 3 0x42)) (fun t => t.pc == 0x202) = true ∧
    after (step ((boot 0x4342).setV 3 0x41)) (fun t => t.pc == 0x204) = true := by decide

/-- T41-17, T41-18. -/
theorem test_seReg : after (step (((boot 0x5120).setV 1 7).setV 2 8)) (fun t => t.pc == 0x202) = true ∧
    after (step (((boot 0x5125).setV 1 7).setV 2 7)) (fun t => t.pc == 0x204) = true := by decide

/-- T41-20, T41-21. -/
theorem test_sneReg : after (step (((boot 0x9120).setV 1 7).setV 2 8)) (fun t => t.pc == 0x204) = true ∧
    after (step (((boot 0x9120).setV 1 7).setV 2 7)) (fun t => t.pc == 0x202) = true := by decide

/-- T41-22, T41-23. -/
theorem test_jpV0 : after (step ((boot 0xB300).setV 0 0x10)) (fun t => t.pc == 0x310) = true ∧
    after (step ((boot 0xBFFF).setV 0 0xFF)) (fun t => t.pc == 0x10FE && t.FAULT == .none) = true := by decide

/-! ### Registers and arithmetic -/

/-- T42-1, T42-2. -/
theorem test_ldImm : after (step (boot 0x60FA)) (fun t => t.v 0 == 0xFA && t.pc == 0x202) = true ∧
    after (step (boot 0x6F12)) (fun t => t.v VF == 0x12) = true := by decide

/-- T42-4, T42-5. -/
theorem test_addImm : after (step (((boot 0x7101).setV 1 0xFF).setV VF 7)) (fun t => t.v 1 == 0 && t.v VF == 7) = true ∧
    after (step ((boot 0x7F01).setV VF 0xFF)) (fun t => t.v VF == 0) = true := by decide

/-- T42-6. -/
theorem test_ldReg : after (step ((boot 0x8120).setV 2 9)) (fun t => t.v 1 == 9) = true := by decide

/-- T42-7. -/
theorem test_orReg : after (step ((((boot 0x8011).setV 0 0x0F).setV 1 0xF0).setV VF 7))
    (fun t => t.v 0 == 0xFF && t.v VF == 7) = true := by decide

/-- T42-8. -/
theorem test_andReg : after (step (((boot 0x8012).setV 0 0x3C).setV 1 0x0F))
    (fun t => t.v 0 == 0x0C && t.v VF == 0) = true := by decide

/-- T42-9. -/
theorem test_xorReg : after (step (((boot 0x8013).setV 0 0x3C).setV 1 0x0F))
    (fun t => t.v 0 == 0x33 && t.v VF == 0) = true := by decide

/-- T42-11, T42-14. -/
theorem test_addReg : after (step (((boot 0x8014).setV 0 250).setV 1 10)) (fun t => t.v 0 == 4 && t.v VF == 1) = true ∧
    after (step (((boot 0x8F14).setV VF 200).setV 1 100)) (fun t => t.v VF == 0x2C) = true := by decide

/-- T42-17, T42-18. -/
theorem test_sub : after (step (((boot 0x8015).setV 0 5).setV 1 10)) (fun t => t.v 0 == 0xFB && t.v VF == 0) = true ∧
    after (step (((boot 0x8015).setV 0 7).setV 1 7)) (fun t => t.v 0 == 0 && t.v VF == 0) = true := by decide

/-- T42-21: `y = 15` is read before the flag is written. -/
theorem test_sub_latched : after (step (((boot 0x80F5).setV 0 10).setV VF 3))
    (fun t => t.v 0 == 7 && t.v VF == 1) = true := by decide

/-- T42-22, T42-23. -/
theorem test_shr : after (step ((boot 0x8216).setV 2 5)) (fun t => t.v 2 == 2 && t.v VF == 1) = true ∧
    after (step (((boot 0x8236).setV 2 4).setV 3 0xFF)) (fun t => t.v 2 == 2 && t.v VF == 0) = true := by decide

/-- T42-25, T42-28. -/
theorem test_subn : after (step (((boot 0x8017).setV 0 5).setV 1 10)) (fun t => t.v 0 == 5 && t.v VF == 1) = true ∧
    after (step (((boot 0x8F17).setV VF 3).setV 1 10)) (fun t => t.v VF == 7) = true := by decide

/-- T42-29, T42-30. -/
theorem test_shl : after (step ((boot 0x830E).setV 3 0x81)) (fun t => t.v 3 == 2 && t.v VF == 1) = true ∧
    after (step ((boot 0x830E).setV 3 0x7F)) (fun t => t.v 3 == 0xFE && t.v VF == 0) = true := by decide

/-- T42-32: if the byte drawn is 0xA5, C40F leaves 0x05. -/
theorem test_rnd (h : Config.rand8 0 = 0xA5#8) :
    ∃ t, exec (.rnd 4 0x0F) State.reset = .next t ∧ t.v 4 = 0x05 ∧ t.draws = 1 := by
  refine ⟨_, rfl, ?_, rfl⟩
  simp only [State.setPc_v, State.setV_v, if_true]
  show Config.rand8 0 &&& 0x0F#8 = 0x05#8
  rw [h]
  decide

/-! ### Index register and memory -/

/-- T43-1. -/
theorem test_ldI : after (step (boot 0xA300)) (fun t => t.I == 0x300) = true := by decide

/-- T43-3, T43-4. -/
theorem test_addI : after (step { ((boot 0xF21E).setV 2 1).setV VF 9 with I := 0xFFF }) (fun t => t.I == 0x1000 && t.v VF == 9) = true ∧
    after (step { (boot 0xF21E).setV 2 1 with I := 0xFFFF }) (fun t => t.I == 0) = true := by decide

/-- T43-5, T43-8. -/
theorem test_ldF : after (step ((boot 0xF029).setV 0 0x0A)) (fun t => t.I == 0x082) = true ∧
    after (step ((boot 0xF029).setV 0 0xFF)) (fun t => t.I == 0x54B) = true := by decide

/-- T43-12, T43-15. -/
theorem test_ldB :
    after (step { (boot 0xF033).setV 0 137 with I := 0xFFD })
      (fun t => t.M.read 0xFFD == 1 && t.M.read 0xFFE == 3 && t.M.read 0xFFF == 7 && t.I == 0xFFD) = true ∧
    after (step { (boot 0xF033).setV 0 137 with I := 0x04D })
      (fun t => t.M.read 0x04D == 1 && t.M.read 0x04F == 7 && t.M.read 0x050 == 0xF0) = true := by decide

/-- T43-13, T43-14. -/
theorem test_ldB_faults :
    after (step { (boot 0xF033).setV 0 137 with I := 0xFFE })
      (fun t => t.FAULT == .dataOutOfRange && t.M.read 0xFFE == 0 && t.pc == 0x200) = true ∧
    after (step { (boot 0xF033).setV 0 137 with I := 0x04E })
      (fun t => t.FAULT == .fontWrite && t.M.read 0x04E == 0) = true := by decide

/-- T43-16. -/
theorem test_ldMemVx : after (step { (((boot 0xF255).setV 0 1).setV 1 2).setV 2 3 with I := 0x300 })
    (fun t => t.M.read 0x300 == 1 && t.M.read 0x301 == 2 && t.M.read 0x302 == 3 && t.I == 0x300) = true := by decide

/-- T43-18, T43-20. -/
theorem test_ldMemVx_faults :
    after (step { (boot 0xF155).setV 0 0xAB with I := 0xFFF }) (fun t => t.FAULT == .dataOutOfRange && t.M.read 0xFFF == 0) = true ∧
    after (step { boot 0xFF55 with I := 0x041 }) (fun t => t.FAULT == .fontWrite) = true := by decide

/-- T43-22. -/
theorem test_ldVxMem : after (step { (boot 0xF465).setV 5 6 with I := 0x050 })
    (fun t => t.v 0 == 0xF0 && t.v 1 == 0x90 && t.v 3 == 0x90 && t.v 4 == 0xF0 && t.v 5 == 6 && t.I == 0x050) = true := by
  decide

/-- T43-23. -/
theorem test_ldVxMem_fault : after (step { boot 0xFF65 with I := 0xFF1 })
    (fun t => t.FAULT == .dataOutOfRange && t.v 0 == 0) = true := by decide

/-! ### Timers and keypad -/

/-- T44-1. -/
theorem test_ldVxDT : after (step { boot 0xF307 with DT := 5 }) (fun t => t.v 3 == 5 && t.DT == 4) = true := by decide

/-- T44-3, T44-5. -/
theorem test_ldDTVx : after (step ((boot 0xF015).setV 0 3)) (fun t => t.DT == 2) = true ∧
    after (step { boot 0xF015 with DT := 9 }) (fun t => t.DT == 0) = true := by decide

/-- T44-7, T44-8. -/
theorem test_ldSTVx : after (step ((boot 0xF118).setV 1 1)) (fun t => t.ST == 0 && t.soundExpired) = true ∧
    after (step { boot 0xF118 with ST := 1 }) (fun t => t.ST == 0 && !t.soundExpired) = true := by decide

/-- T45-1, T45-5. -/
theorem test_skp : after (step { (boot 0xE59E).setV 5 10 with K := pressing 10 }) (fun t => t.pc == 0x204) = true ∧
    after (step ((boot 0xE59E).setV 5 0x10)) (fun t => t.FAULT == .keyIndexOutOfRange && t.pc == 0x200) = true := by decide

/-- T45-3, T45-4. -/
theorem test_sknp : after (step ((boot 0xE5A1).setV 5 10)) (fun t => t.pc == 0x204) = true ∧
    after (step { (boot 0xE5A1).setV 5 10 with K := pressing 10 }) (fun t => t.pc == 0x202) = true := by decide

/-- T45-7, T45-8. -/
theorem test_ldVxK :
    after (step { boot 0xF20A with K := (pressing 5).set 9 true }) (fun t => t.v 2 == 9 && t.pc == 0x202) = true ∧
    after (step { (boot 0xF20A).setV 2 7 with DT := 3 }) (fun t => t.v 2 == 7 && t.pc == 0x200 && t.DT == 2) = true := by decide

/-! ### Display -/

/-- A state with the font's first row under `I` and one pixel set. -/
def painted (c : Fin 64) (r : Fin 32) (s : State) : State := { s with I := 0x050, FB := s.FB.setPixel c r .on }

/-- T46-1, one of its pixels. -/
theorem test_cls : after (step (painted 63 31 (boot 0x00E0)))
    (fun t => t.FB.pixel 63 31 == .off && t.pc == 0x202 && t.v VF == 0) = true := by decide

/-- T46-3. -/
theorem test_drw_collision : after (step (painted 1 0 (boot 0xD011)))
    (fun t => t.FB.pixel 0 0 == .on && t.FB.pixel 1 0 == .off && t.FB.pixel 3 0 == .on && t.FB.pixel 4 0 == .off &&
      t.v VF == 1) = true := by decide

/-- T46-4, T46-5: the origin wraps, the sprite does not. -/
theorem test_drw_edges : after (step { ((boot 0xD011).setV 0 70).setV 1 33 with I := 0x050 })
      (fun t => t.FB.pixel 6 1 == .on && t.FB.pixel 9 1 == .on && t.FB.pixel 10 1 == .off) = true ∧
    after (step { (boot 0xD011).setV 0 62 with I := 0x050 })
      (fun t => t.FB.pixel 62 0 == .on && t.FB.pixel 63 0 == .on && t.FB.pixel 0 0 == .off && t.v VF == 0) = true := by
  decide

/-- T46-7, T46-9: no row is read with `n = 0`; a row beyond memory faults. -/
theorem test_drw_range :
    after (step { (boot 0xD010).setV VF 1 with I := 0xFFF0 }) (fun t => t.v VF == 0 && t.FAULT == .none) = true ∧
    after (step { boot 0xD013 with I := 0xFFE }) (fun t => t.FAULT == .dataOutOfRange && t.pc == 0x200) = true := by decide

/-! ### The host -/

/-- 70_reset_and_hazards.md R290, 42_register_alu.md R151: a reset after a draw clears the register the byte went to and
does not take the draw back, so the next RND takes another byte. -/
theorem test_hostReset_keeps_draws :
    ∃ t, exec (.rnd 4 0xFF) (State.reset.setPc 0x300) = .next t ∧ t.hostReset.v 4 = 0#8 ∧ t.hostReset.pc = 0x200#16 ∧
      t.hostReset.drawRandom.1 = Config.rand8 1 := ⟨_, rfl, rfl, rfl, rfl⟩

/-- A byte loaded at 0x200 and the next (70_reset_and_hazards.md R291). -/
theorem test_hostLoad :
    (match State.reset.hostLoad [0x60, 0xFA] with
      | .ok t => t.M.read 0x200 == 0x60 && t.M.read 0x201 == 0xFA
      | _ => false) = true := by decide

/-- L1-9. -/
theorem test_hostLoad_long : State.reset.hostLoad (List.replicate 3585 0) = .error .programTooLarge :=
  if_pos (by rw [List.length_replicate]; decide)

/-- 46_display.md R232: element `1 × 64 + 2` is pixel `(2, 1)`. -/
theorem test_port : (painted 2 1 State.reset).portWord 66 = 0xFFFFFFFF#32 ∧ (painted 2 1 State.reset).portWord 65 = 0#32 := by
  decide

/-- The codes of 60_exceptions.md R261. -/
theorem test_codes : [Cause.none, .stackOverflow, .stackUnderflow, .fetchOutOfRange, .fetchMisaligned, .dataOutOfRange,
    .fontWrite, .keyIndexOutOfRange].map Cause.code = [0, 1, 2, 3, 4, 5, 6, 7] := by decide

/-! ### Witnesses: encoding and the step -/

theorem witness_DecodeOfEncode : (Instr.sys 0xFFF).wellFormed = true ∧ (Instr.ldVxMem 15).wellFormed = true := by decide

theorem witness_EncodeOfDecode : decodeWord 0x9AB7 = .ok (.sneReg 0xA 0xB 7) ∧ decodeWord 0x8236 = .ok (.shr 2 3) := by decide

theorem witness_StepRunsDecodedInstruction :
    ((boot 0x60FA).about 0x60FA ∧ decodeWord 0x60FA = .ok (.ldImm 0 0xFA)) ∧
    (boot 0x00EE).about 0x00EE ∧ decodeWord 0x00EE = .ok .ret := by decide

theorem witness_UnknownWordIsReportedNoOp : (boot 0xF000).about 0xF000 ∧ decodeWord 0xF000 = .error (.familyF 0) := by decide

/-- A state of a run: a program word in memory, one entry on the stack, a fault at the `RET` before it. -/
def used : State := { stacked 1 0x200 (boot 0x00EE) with FAULT := .fontWrite }

theorem used_inv : used.Inv where
  memory := by decide
  font a ha := by
    have h : a < 0x200 := Nat.lt_of_lt_of_le ha.2 (by decide)
    have h0 : ¬ 0x200 = a := by omega
    have h1 : ¬ 0x201 = a := by omega
    show Memory.read [(0x201, 0xEE)] a = unlisted a
    simp only [Memory.read, if_neg h1]
  stack k hk := by
    have h0 : k = 0 := Fin.ext (Nat.lt_one_iff.mp hk)
    subst h0
    decide
  pcBound := by decide
  outputs _ := by decide

theorem witness_FaultedCoreDoesNothing : used.FAULT ≠ .none ∧ used.Inv := ⟨by decide, used_inv⟩

/-- One for each side of the `if`, at the borders. -/
theorem witness_BadFetchFaults :
    ({ State.reset with pc := 0xFFD }.running ∧ ¬ { State.reset with pc := 0xFFD }.fetchable) ∧
    ({ State.reset with pc := 0xFFF }.running ∧ ¬ { State.reset with pc := 0xFFF }.fetchable) ∧
    ({ State.reset with pc := 0x1000 }.running ∧ ¬ { State.reset with pc := 0x1000 }.fetchable) := by decide

/-- Every cause a handler raises, and a value beside each border that raises none. -/
theorem witness_FaultsAreThese :
    (stacked 16 0 State.reset).running ∧
    faultOf (.call 0) (stacked 16 0 State.reset) = .stackOverflow ∧ faultOf (.call 0) (stacked 15 0 State.reset) = .none ∧
    faultOf .ret State.reset = .stackUnderflow ∧ faultOf .ret (stacked 1 0 State.reset) = .none ∧
    faultOf (.drw 0 0 3) { State.reset with I := 0xFFE } = .dataOutOfRange ∧
    faultOf (.drw 0 0 0) { State.reset with I := 0xFFFF } = .none ∧
    faultOf (.ldVxMem 15) { State.reset with I := 0xFF1 } = .dataOutOfRange ∧
    faultOf (.ldB 0) { State.reset with I := 0x04E } = .fontWrite ∧ faultOf (.ldB 0) { State.reset with I := 0x0A0 } = .none ∧
    faultOf (.ldMemVx 15) { State.reset with I := 0x041 } = .fontWrite ∧
    faultOf (.ldMemVx 15) { State.reset with I := 0x040 } = .none ∧
    faultOf (.skp 0) (State.reset.setV 0 16) = .keyIndexOutOfRange ∧ faultOf (.sknp 0) (State.reset.setV 0 15) = .none := by
  decide

theorem witness_FaultingStepIsPrecise :
    ∃ t, (boot 0x00EE).about 0x00EE ∧ step (boot 0x00EE) = .next t ∧ t.FAULT ≠ .none := by
  obtain ⟨t, h, hp⟩ := next_of_after (o := step (boot 0x00EE)) (p := fun t => decide (t.FAULT ≠ .none)) (by decide)
  exact ⟨t, by decide, h, of_decide_eq_true hp⟩

/-- The two answers of the key wait, and a return. -/
theorem witness_NextPcFollowsResult :
    (∃ t, State.reset.running ∧ exec (.ldVxK 2) State.reset = .next t ∧ t.running) ∧
    (∃ t, exec (.ldVxK 2) { State.reset with K := pressing 15 } = .next t ∧ t.running) ∧
    ∃ t, exec .ret (stacked 16 0xFFE State.reset) = .next t ∧ t.running := by
  obtain ⟨t, h, hp⟩ := next_of_after (o := exec (.ldVxK 2) State.reset) (p := fun t => decide t.running) (by decide)
  obtain ⟨u, hu, hq⟩ := next_of_after (o := exec (.ldVxK 2) { State.reset with K := pressing 15 })
    (p := fun t => decide t.running) (by decide)
  obtain ⟨r, hr, hs⟩ := next_of_after (o := exec .ret (stacked 16 0xFFE State.reset)) (p := fun t => decide t.running) (by decide)
  exact ⟨⟨t, rfl, h, of_decide_eq_true hp⟩, ⟨u, hu, of_decide_eq_true hq⟩, ⟨r, hr, of_decide_eq_true hs⟩⟩

/-- A timer load, and a word that selects no operation. -/
theorem witness_TimersTickAfterHandler :
    (∃ t u, (boot 0xF015).about 0xF015 ∧ decodeWord 0xF015 = .ok (.ldDTVx 0) ∧
      exec (.ldDTVx 0) { boot 0xF015 with IR := 0xF015, unknown := false, soundExpired := false } = .next u ∧ u.running ∧
      step (boot 0xF015) = .next t) ∧
    ∃ t, (boot 0x800F).about 0x800F ∧ decodeWord 0x800F = .error (.family8 0xF) ∧ step (boot 0x800F) = .next t := by
  obtain ⟨u, hu, hq⟩ := next_of_after
    (o := exec (.ldDTVx 0) { boot 0xF015 with IR := 0xF015, unknown := false, soundExpired := false })
    (p := fun t => decide t.running) (by decide)
  obtain ⟨t, ht, -⟩ := next_of_after (o := step (boot 0xF015)) (p := fun _ => true) (by decide)
  obtain ⟨t', ht', -⟩ := next_of_after (o := step (boot 0x800F)) (p := fun _ => true) (by decide)
  exact ⟨⟨t, u, by decide, by decide, hu, of_decide_eq_true hq, ht⟩, t', by decide, by decide, ht'⟩

/-- A step that loads neither timer, with `ST` at 1. -/
theorem witness_TimersCountSteps :
    ∃ t, { boot 0x6000 with ST := 1 }.about 0x6000 ∧ step { boot 0x6000 with ST := 1 } = .next t ∧ t.running ∧
      (∀ x, decodeWord 0x6000 ≠ .ok (.ldDTVx x)) ∧ ∀ x, decodeWord 0x6000 ≠ .ok (.ldSTVx x) := by
  obtain ⟨t, ht, hp⟩ := next_of_after (o := step { boot 0x6000 with ST := 1 }) (p := fun t => decide t.running) (by decide)
  have hd : decodeWord 0x6000 = .ok (.ldImm 0 0) := by decide
  refine ⟨t, by decide, ht, of_decide_eq_true hp, ?_⟩
  rw [hd]
  refine ⟨fun x h => ?_, fun x h => ?_⟩ <;> cases h

/-! ### Witnesses: whole-machine rules -/

theorem witness_HandlersWriteOnlyTheirFields :
    ∃ t, { State.reset with I := 0x040 }.running ∧ exec (.ldMemVx 15) { State.reset with I := 0x040 } = .next t ∧ t.running := by
  obtain ⟨t, ht, hp⟩ := next_of_after (o := exec (.ldMemVx 15) { State.reset with I := 0x040 })
    (p := fun t => decide t.running) (by decide)
  exact ⟨t, rfl, ht, of_decide_eq_true hp⟩

theorem witness_StepKeepsInv : ∃ t, used.Inv ∧ step used = .next t := by
  obtain ⟨t, ht, -⟩ := next_of_after (o := step used) (p := fun _ => true) (by decide)
  exact ⟨t, used_inv, ht⟩

/-- Both ends of the font table, under a step that stores. -/
theorem witness_FontNeverChanges :
    (0x050 ≤ 0x050 ∧ 0x050 ≤ 0x09F ∧ 0x050 ≤ 0x09F ∧ 0x09F ≤ 0x09F) ∧
    ∃ t, step { boot 0xFF55 with I := 0x0A0 } = .next t := by
  obtain ⟨t, ht, -⟩ := next_of_after (o := step { boot 0xFF55 with I := 0x0A0 }) (p := fun _ => true) (by decide)
  exact ⟨by decide, t, ht⟩

theorem witness_FieldsHaveTheseWriters :
    (∃ t, step (boot 0xA300) = .next t) ∧ ∃ t, exec (.ldI 0x300) State.reset = .next t ∧ t.I ≠ State.reset.I := by
  obtain ⟨t, ht, -⟩ := next_of_after (o := step (boot 0xA300)) (p := fun _ => true) (by decide)
  obtain ⟨u, hu, hp⟩ := next_of_after (o := exec (.ldI 0x300) State.reset) (p := fun t => decide (t.I ≠ State.reset.I)) (by decide)
  exact ⟨⟨t, ht⟩, u, hu, of_decide_eq_true hp⟩

theorem witness_FlagHasTheseWriters :
    ∃ t, exec (.addReg 0 0) (State.reset.setV 0 128) = .next t ∧ t.v VF ≠ (State.reset.setV 0 128).v VF := by
  obtain ⟨t, ht, hp⟩ := next_of_after (o := exec (.addReg 0 0) (State.reset.setV 0 128))
    (p := fun t => decide (t.v VF ≠ (State.reset.setV 0 128).v VF)) (by decide)
  exact ⟨t, ht, of_decide_eq_true hp⟩

theorem witness_ResetState : (0x04F < 0x050 ∨ 0x09F < 0x04F) ∧ (0x0A0 < 0x050 ∨ 0x09F < 0x0A0) := by decide

/-! ### Witnesses: memory -/

/-- Each clause at its borders, and a canonical memory. -/
theorem witness_MemoryPrimitives :
    (boot 0x60FA).M.wf ∧ 4096 ≤ 4096 ∧ (0x050 ≤ 0x050 ∧ 0x050 ≤ 0x09F) ∧ (0x050 ≤ 0x09F ∧ 0x09F ≤ 0x09F) ∧
    (0x04F < 4096 ∧ (0x04F < 0x050 ∨ 0x09F < 0x04F)) ∧ (0x0A0 < 4096 ∧ (0x0A0 < 0x050 ∨ 0x09F < 0x0A0)) ∧
    4095 < 4096 ∧ (4095 < 0x050 ∨ 0x09F < 4095) := by decide

/-- The last two registers of a block that ends at the top of memory. -/
theorem witness_StoreIsSeenByFetch :
    ∃ t, { State.reset with I := 0xFF0 }.M.wf ∧ { State.reset with I := 0xFF0 }.running ∧
      exec (.ldMemVx 15) { State.reset with I := 0xFF0 } = .next t ∧ t.running ∧ 14 + 1 ≤ (15 : Reg).toNat := by
  obtain ⟨t, ht, hp⟩ := next_of_after (o := exec (.ldMemVx 15) { State.reset with I := 0xFF0 })
    (p := fun t => decide t.running) (by decide)
  exact ⟨t, by decide, rfl, ht, of_decide_eq_true hp, by decide⟩

/-! ### Witnesses: control flow -/

theorem witness_SysAdvances :
    (0x0E1 : Addr) ≠ 0x0E0#12 ∧ (0x0E1 : Addr) ≠ 0x0EE#12 ∧ (boot 0x00E1).about (0x0#4 ++ (0x0E1 : Addr) : Word) := by decide

theorem witness_RetPopsOrUnderflows :
    (stacked 1 0x204 State.reset).SP.val = (0 : Fin 16).val + 1 ∧ (stacked 16 0x204 State.reset).SP.val = (15 : Fin 16).val + 1 ∧
    State.reset.SP.val = 0 := by decide

theorem witness_CallPushesOrOverflows :
    State.reset.SP.val = (0 : Fin 16).val ∧ (stacked 15 0x204 State.reset).SP.val = (15 : Fin 16).val ∧
    (stacked 16 0x204 State.reset).SP.val = 16 := by decide

/-- L1-6, with room for one more entry and the target at the last word. -/
theorem witness_CallThenRetResumes :
    let s := { (stacked 15 0x204 (boot 0x2FFE)).placeWord 0xFFE 0x00EE with pc := 0x200 }
    s.about (0x2#4 ++ (0xFFE : Addr) : Word) ∧ s.SP.val < 16 ∧ (0xFFE : Addr).toNat ≤ 0xFFE ∧ (0xFFE : Addr).toNat % 2 = 0 ∧
      s.M.read (0xFFE : Addr).toNat ++ s.M.read ((0xFFE : Addr).toNat + 1) = 0x00EE#16 := by decide

/-! ### Witnesses: registers and arithmetic -/

theorem witness_AddWithCarry : (0 : Reg) ≠ VF ∧ (14 : Reg) ≠ VF := by decide

theorem witness_Subtractions : (0 : Reg) ≠ VF ∧ (14 : Reg) ≠ VF := by decide

theorem witness_Shifts : (0 : Reg) ≠ VF ∧ (14 : Reg) ≠ VF := by decide

theorem witness_RandomIsMasked : (0x0F : Byte).getLsbD 4 = false ∧ (0x0F : Byte).getLsbD 7 = false := by decide

/-! ### Witnesses: index register and memory -/

/-- Stores just inside, just beyond memory; just below, at both ends of, just above the font. -/
theorem witness_BcdStores :
    ((indexed 0xFFD).I.toNat + 2 ≤ 0xFFF ∧ ((indexed 0xFFD).I.toNat + 2 < 0x050 ∨ 0x09F < (indexed 0xFFD).I.toNat)) ∧
    ((indexed 0x04D).I.toNat + 2 ≤ 0xFFF ∧ ((indexed 0x04D).I.toNat + 2 < 0x050 ∨ 0x09F < (indexed 0x04D).I.toNat)) ∧
    ((indexed 0x0A0).I.toNat + 2 ≤ 0xFFF ∧ ((indexed 0x0A0).I.toNat + 2 < 0x050 ∨ 0x09F < (indexed 0x0A0).I.toNat)) ∧
    0xFFF < (indexed 0xFFE).I.toNat + 2 ∧ (0x050 ≤ (indexed 0x04E).I.toNat + 2 ∧ (indexed 0x04E).I.toNat ≤ 0x09F) ∧
    (0x050 ≤ (indexed 0x09F).I.toNat + 2 ∧ (indexed 0x09F).I.toNat ≤ 0x09F) ∧ { State.reset with I := 0xFFD }.M.wf := by decide

theorem witness_RegisterBlockStores :
    ((indexed 0xFF0).I.toNat + (15 : Reg).toNat ≤ 0xFFF ∧ ((indexed 0xFF0).I.toNat + (15 : Reg).toNat < 0x050 ∨ 0x09F < (indexed 0xFF0).I.toNat)) ∧
    ((indexed 0x040).I.toNat + (15 : Reg).toNat ≤ 0xFFF ∧ ((indexed 0x040).I.toNat + (15 : Reg).toNat < 0x050 ∨ 0x09F < (indexed 0x040).I.toNat)) ∧
    ((indexed 0x0A0).I.toNat + (0 : Reg).toNat ≤ 0xFFF ∧ ((indexed 0x0A0).I.toNat + (0 : Reg).toNat < 0x050 ∨ 0x09F < (indexed 0x0A0).I.toNat)) ∧
    0xFFF < (indexed 0xFF1).I.toNat + (15 : Reg).toNat ∧ (0x050 ≤ (indexed 0x041).I.toNat + (15 : Reg).toNat ∧ (indexed 0x041).I.toNat ≤ 0x09F) ∧
    (0x050 ≤ (indexed 0x09F).I.toNat + (0 : Reg).toNat ∧ (indexed 0x09F).I.toNat ≤ 0x09F) ∧ { State.reset with I := 0xFF0 }.M.wf ∧
    (15 : Reg).toNat ≤ (15 : Reg).toNat := by decide

theorem witness_RegisterBlockLoads :
    (indexed 0xFF0).I.toNat + (15 : Reg).toNat ≤ 0xFFF ∧ (indexed 0xFFF).I.toNat + (0 : Reg).toNat ≤ 0xFFF ∧
    (15 : Reg).toNat ≤ (15 : Reg).toNat ∧ 0xFFF < (indexed 0xFF1).I.toNat + (15 : Reg).toNat := by decide

/-! ### Witnesses: timers and keypad -/

theorem witness_TimerWriteThenTick :
    (boot 0xF015).about (0xF#4 ++ (0 : Reg) ++ 0x15#8 : Word) ∧ (boot 0xFF18).about (0xF#4 ++ (15 : Reg) ++ 0x18#8 : Word) ∧
    (boot 0xF307).about (0xF#4 ++ (3 : Reg) ++ 0x07#8 : Word) := by decide

theorem witness_KeySkips :
    (State.reset.v 0).toNat = (0 : Fin 16).val ∧ ((State.reset.setV 5 15).v 5).toNat = (15 : Fin 16).val ∧
    16 ≤ ((State.reset.setV 5 16).v 5).toNat := by decide

/-- The highest key, a key with all above it up, and no key. -/
theorem witness_KeyWait :
    ((pressing 15)[(15 : Fin 16).val] = true ∧ ∀ j : Fin 16, 15 < j → (pressing 15)[j.val] = false) ∧
    (((pressing 5).set 9 true)[(9 : Fin 16).val] = true ∧ ∀ j : Fin 16, 9 < j → ((pressing 5).set 9 true)[j.val] = false) ∧
    ∀ k : Fin 16, State.reset.K[k.val] = false := by decide

theorem witness_KeyWaitRepeatsAndTicks :
    (boot 0xF20A).about (0xF#4 ++ (2 : Reg) ++ 0x0A#8 : Word) ∧ ∀ k : Fin 16, (boot 0xF20A).K[k.val] = false := by decide

/-! ### Witnesses: framebuffer, host, end of a run -/

/-- No row, and a last row at the top of memory; a state in which the sprite paints the cell `(0, 0)`. -/
theorem witness_DrwTogglesSprite :
    ((0 : Nib).toNat = 0 ∨ (indexed 0xFFFF).I.toNat + (0 : Nib).toNat - 1 ≤ 0xFFF) ∧
    ((2 : Nib).toNat = 0 ∨ (indexed 0xFFE).I.toNat + (2 : Nib).toNat - 1 ≤ 0xFFF) ∧
    { State.reset with I := 0x050 }.paints 0 0 1 0 0 :=
  ⟨by decide, by decide, 0, 0, by decide, by decide, by decide, by decide, by decide⟩

theorem witness_DrwTwiceRestores :
    ((5 : Nib).toNat = 0 ∨ (indexed 0x050).I.toNat + (5 : Nib).toNat - 1 ≤ 0xFFF) ∧ (0 : Reg) ≠ VF ∧ (1 : Reg) ≠ VF := by decide

theorem witness_PortIsRowMajor :
    (0 : Fin 2048).val = (0 : Fin 32).val * 64 + (0 : Fin 64).val ∧
    (2047 : Fin 2048).val = (31 : Fin 32).val * 64 + (63 : Fin 64).val := by decide

/-- L1-8, L1-9. -/
theorem witness_LoaderCopiesOrRefuses :
    3584 < (List.replicate 3585 (0 : Byte)).length ∧ (List.replicate 3584 (0 : Byte)).length ≤ 3584 ∧
    3583 < (List.replicate 3584 (0 : Byte)).length ∧ State.reset.M.wf := by
  simp only [List.length_replicate]
  decide

/-- T41-7, and the last word of memory. -/
theorem witness_ParkedStaysParked :
    ((boot 0x1200).parked ∧ (boot 0x1200).pc.toNat % 2 = 0) ∧
    (putAt 0xFFE 0x1FFE State.reset).parked ∧ (putAt 0xFFE 0x1FFE State.reset).pc.toNat % 2 = 0 :=
  ⟨⟨⟨rfl, 0x200, by decide, by decide⟩, by decide⟩, ⟨rfl, 0xFFE, by decide, by decide⟩, by decide⟩

end Sys2Proof.Tests
end

section
/-! What every instruction may write, where it may go and what it stores, from every state; and what a step keeps
of all that (10_state.md R23, R28 to R35). -/

namespace Sys2Proof.Machine

variable {i : Instr} {s t : State}

/-! ### What the instructions with more than one outcome answer -/

/-- A store instruction faults, or stores its whole block inside memory and outside the font. -/
theorem finish_store_cases {a : Nat} {bs : List Byte}
    (h : s.finish (do let u ← s.storeBytes a bs; return (u, .advance)) = .next t) :
    (∃ c, t = s.raise c) ∨ (a + bs.length ≤ Config.memSize ∧ ¬ meetsFont a bs.length ∧
      t = (s.setM (s.M.writeAll a bs)).setPc (s.pc + 2#16)) := by
  rw [finish_store] at h
  split at h
  · cases h; exact .inl ⟨_, rfl⟩
  · split at h
    · cases h; exact .inl ⟨_, rfl⟩
    · cases h; exact .inr ⟨by omega, ‹_›, rfl⟩

theorem exec_ret_cases (h : exec .ret s = .next t) :
    (∃ c, t = s.raise c) ∨ ∃ k : Fin 16, s.SP.val = k.val + 1 ∧
      t = (s.setStack s.S ⟨k.val, by omega⟩).setPc (s.S[k.val] + 2#16) := by
  by_cases hsp : s.SP.val = 0
  · exact .inl ⟨_, Host.Outcome.next.inj (h.symm.trans (execRet_empty s hsp))⟩
  · obtain ⟨k, hk⟩ : ∃ k : Fin 16, s.SP.val = k.val + 1 := ⟨⟨s.SP.val - 1, by omega⟩, by simp only; omega⟩
    exact .inr ⟨k, hk, Host.Outcome.next.inj (h.symm.trans (execRet_ok s k hk))⟩

theorem exec_call_cases {nnn : Addr} (h : exec (.call nnn) s = .next t) :
    (∃ c, t = s.raise c) ∨ ∃ hsp : s.SP.val < 16,
      t = (s.setStack (s.S.set s.SP.val s.pc hsp) ⟨s.SP.val + 1, by omega⟩).setPc (addrOperand nnn) := by
  by_cases hsp : s.SP.val < 16
  · exact .inr ⟨hsp, Host.Outcome.next.inj (h.symm.trans (execCall_ok nnn s hsp))⟩
  · exact .inl ⟨_, Host.Outcome.next.inj (h.symm.trans (execCall_full nnn s hsp))⟩

/-- The shape of both key skips: a fault of the index, or a skip. -/
theorem finish_key_cases {b : Byte} {f : Bool → Bool}
    (h : s.finish (do let down ← s.key b; return (s, skipIf (f down))) = .next t) :
    (∃ c, t = s.raise c) ∨ ∃ c, t = s.setPc ((skipIf c).next s.pc) := by
  cases hk : s.key b with
  | error c => rw [hk] at h; cases h; exact .inl ⟨c, rfl⟩
  | ok down => rw [hk] at h; cases h; exact .inr ⟨f down, rfl⟩

theorem exec_drw_cases {x y : Reg} {n : Nib} (h : exec (.drw x y n) s = .next t) :
    (∃ c, t = s.raise c) ∨ ∃ fb b, t = ((s.setFB fb).setV VF b).setPc (s.pc + 2#16) := by
  have h := h.symm.trans (execDrw_eq x y n s)
  split at h
  · cases h; exact .inl ⟨_, rfl⟩
  · cases h; exact .inr ⟨_, _, rfl⟩

theorem exec_ldVxMem_cases {x : Reg} (h : exec (.ldVxMem x) s = .next t) :
    (∃ c, t = s.raise c) ∨ ∃ bs, bs.length = x.toNat + 1 ∧ t = (s.setVs bs).setPc (s.pc + 2#16) := by
  have h := h.symm.trans (execLdVxMem_eq x s)
  split at h
  · cases h; exact .inl ⟨_, rfl⟩
  · cases h; exact .inr ⟨_, s.length_blockAt _ _, rfl⟩

/-- `LD Vx, K` loads a register and advances, or stays where it is (45_input.md R212). -/
theorem exec_ldVxK_cases {x : Reg} (h : exec (.ldVxK x) s = .next t) :
    (∃ b, t = (s.setV x b).setPc (s.pc + 2#16)) ∨ t = s.setPc s.pc := by
  simp only [exec, execLdVxK] at h
  split at h
  · cases h; exact .inl ⟨_, rfl⟩
  · cases h; exact .inr rfl

/-! ### The places of the frames -/

@[simp] theorem mem_allPixels_iff {l : Loc} : l ∈ allPixels ↔ ∃ c r, l = .pixel c r := by
  simp only [allPixels, List.mem_flatMap, List.mem_map, List.mem_finRange, true_and]
  exact ⟨fun ⟨r, c, h⟩ => ⟨c, r, h.symm⟩, fun ⟨c, r, h⟩ => ⟨r, c, h.symm⟩⟩

@[simp] theorem mem_memBlock_iff {a n : Nat} {l : Loc} : l ∈ memBlock a n ↔ ∃ k < n, l = .mem (a + k) := by
  simp only [memBlock, List.mem_map, List.mem_range, eq_comm]

@[simp] theorem mem_regsUpTo_iff {x : Reg} {l : Loc} :
    l ∈ regsUpTo x ↔ ∃ k < x.toNat + 1, l = .v (BitVec.ofNat 4 k) := by
  simp only [regsUpTo, List.mem_map, List.mem_range, eq_comm]

/-! ### The frame of every instruction (40_cycle_driver.md R104) -/

theorem pc_mem_writesOf (i : Instr) (s : State) : .pc ∈ writesOf i s := by cases i <;> simp [writesOf]

/-- The `pc` of a handler's result is within the frame of every instruction. -/
theorem OnlyWrites.thenPc {u : State} (h : OnlyWrites (writesOf i s) s u) (w : Word) :
    OnlyWrites (writesOf i s) s (u.setPc w) :=
  h.trans (onlyWrites_setPc u w (pc_mem_writesOf i s))

/-- From every state an instruction raises a fault, which changes `FAULT` alone, or writes only the places of its
rule. -/
theorem exec_frame (h : exec i s = .next t) : (∃ c, t = s.raise c) ∨ OnlyWrites (writesOf i s) s t := by
  cases i with
  | sys _ | jp _ | seImm _ _ | sneImm _ _ | seReg _ _ _ | sneReg _ _ _ | jpV0 _ =>
    cases h; exact .inr (frame_pc s _)
  | skp _ => exact (finish_key_cases (f := id) h).imp_right fun ⟨_, ht⟩ => ht ▸ frame_pc s _
  | sknp _ => exact (finish_key_cases (f := not) h).imp_right fun ⟨_, ht⟩ => ht ▸ frame_pc s _
  | cls =>
    cases h
    exact .inr (.thenPc (onlyWrites_setFB s _ fun c r => by simp [writesOf]) _)
  | ret =>
    refine (exec_ret_cases h).imp_right fun ⟨k, _, ht⟩ => ht ▸ ?_
    exact (onlyWrites_setStack s _ _ (by simp [writesOf]) fun _ _ => rfl).thenPc _
  | call nnn =>
    refine (exec_call_cases h).imp_right fun ⟨hsp, ht⟩ => ht ▸ ?_
    refine (onlyWrites_setStack s _ _ (by simp [writesOf]) fun k hk => ?_).thenPc _
    have hne : s.SP.val ≠ k.val := fun he => hk (by simp [writesOf, he])
    exact Vector.getElem_set_ne _ _ hne
  | ldImm _ _ | addImm _ _ | ldReg _ _ | orReg _ _ | andReg _ _ | xorReg _ _ | ldVxDT _ =>
    cases h; exact .inr (frame_setV s _ _ _)
  | ldVxK x =>
    obtain ⟨b, rfl⟩ | rfl := exec_ldVxK_cases h
    · exact .inr (frame_setV s _ _ _)
    · exact .inr ((OnlyWrites.refl _ s).thenPc _)
  | addReg _ _ | sub _ _ | shr _ _ | subn _ _ | shl _ _ =>
    cases h; exact .inr (frame_setFlagThenV s _ _ _ _)
  | rnd x _ =>
    cases h
    exact .inr (((onlyWrites_setDraws s _ (by simp [writesOf])).trans
      (onlyWrites_setV _ x _ (by simp [writesOf]))).thenPc _)
  | ldI _ | addI _ | ldF _ => cases h; exact .inr ((onlyWrites_setI s _ (by simp [writesOf])).thenPc _)
  | drw _ _ _ =>
    refine (exec_drw_cases h).imp_right fun ⟨fb, b, ht⟩ => ht ▸ ?_
    exact ((onlyWrites_setFB s fb fun c r => by simp [writesOf]).trans
      (onlyWrites_setV _ VF b (by simp [writesOf]))).thenPc _
  | ldDTVx _ => cases h; exact .inr ((onlyWrites_setDT s _ (by simp [writesOf])).thenPc _)
  | ldSTVx _ => cases h; exact .inr ((onlyWrites_setST s _ (by simp [writesOf])).thenPc _)
  | ldB x =>
    refine (finish_store_cases h).imp_right fun ⟨_, _, ht⟩ => ht ▸ ?_
    exact .thenPc (onlyWrites_store s _ rfl fun _ => List.mem_cons_of_mem _) _
  | ldMemVx x =>
    refine (finish_store_cases h).imp_right fun ⟨_, _, ht⟩ => ht ▸ ?_
    exact .thenPc (onlyWrites_store s _ (s.length_vUpTo x) fun _ => List.mem_cons_of_mem _) _
  | ldVxMem x =>
    refine (exec_ldVxMem_cases h).imp_right fun ⟨bs, hn, ht⟩ => ht ▸ ?_
    exact .thenPc (onlyWrites_setVs s x bs hn fun _ => List.mem_cons_of_mem _) _

/-- A place other than `FAULT` holds what it held, or is one the instruction's rule names. -/
theorem exec_same_or_named (h : exec i s = .next t) (l : Loc) (hl : l ≠ .fault) : l.same s t ∨ l ∈ writesOf i s := by
  obtain ⟨c, rfl⟩ | hframe := exec_frame h
  · exact .inl (frame_raise s c l (by simpa using hl))
  · exact or_iff_not_imp_right.mpr (hframe l)

/-! ### Which instructions' rules name a place (10_state.md R23, R28, R30) -/

/-- Only `LD VF, [I]` loads a block of registers that reaches `VF`. -/
theorem flag_mem_regsUpTo {x : Reg} (h : .v VF ∈ regsUpTo x) : x = VF := by
  obtain ⟨k, hk, hl⟩ := mem_regsUpTo_iff.mp h
  have hkv : VF = BitVec.ofNat 4 k := Loc.v.inj hl
  bv_omega

theorem ir_not_mem_writesOf : .ir ∉ writesOf i s := by cases i <;> simp [writesOf]

theorem key_not_mem_writesOf (k : Fin 16) : .key k ∉ writesOf i s := by cases i <;> simp [writesOf]

theorem unknown_not_mem_writesOf : .unknown ∉ writesOf i s := by cases i <;> simp [writesOf]

theorem soundExpired_not_mem_writesOf : .soundExpired ∉ writesOf i s := by cases i <;> simp [writesOf]

theorem dt_mem_writesOf (h : .dt ∈ writesOf i s) : ∃ x, i = .ldDTVx x := by
  cases i <;> simp [writesOf] at h ⊢

theorem st_mem_writesOf (h : .st ∈ writesOf i s) : ∃ x, i = .ldSTVx x := by
  cases i <;> simp [writesOf] at h ⊢

theorem index_mem_writesOf (h : .index ∈ writesOf i s) :
    (∃ nnn, i = .ldI nnn) ∨ (∃ x, i = .addI x) ∨ ∃ x, i = .ldF x := by
  cases i <;> simp [writesOf] at h ⊢

theorem pixel_mem_writesOf {c : Fin 64} {r : Fin 32} (h : .pixel c r ∈ writesOf i s) :
    i = .cls ∨ ∃ x y n, i = .drw x y n := by
  cases i <;> simp [writesOf] at h ⊢

theorem stack_mem_writesOf {k : Fin 16} (h : .stack k ∈ writesOf i s) : i = .ret ∨ ∃ nnn, i = .call nnn := by
  cases i <;> simp [writesOf] at h ⊢

theorem sp_mem_writesOf (h : .sp ∈ writesOf i s) : i = .ret ∨ ∃ nnn, i = .call nnn := by
  cases i <;> simp [writesOf] at h ⊢

theorem flag_mem_writesOf (h : .v VF ∈ writesOf i s) :
    (∃ x y, i = .addReg x y ∨ i = .sub x y ∨ i = .shr x y ∨ i = .subn x y ∨ i = .shl x y) ∨
    (∃ x y n, i = .drw x y n) ∨
    (∃ kk, i = .ldImm VF kk ∨ i = .addImm VF kk ∨ i = .rnd VF kk) ∨
    (∃ y, i = .ldReg VF y ∨ i = .orReg VF y ∨ i = .andReg VF y ∨ i = .xorReg VF y) ∨
    i = .ldVxDT VF ∨ i = .ldVxK VF ∨ i = .ldVxMem VF := by
  cases i with
  | ldVxMem x =>
    have hx : x = VF := flag_mem_regsUpTo ((List.mem_cons.mp h).resolve_left nofun)
    simp [hx]
  | _ => simp [writesOf, eq_comm] at h ⊢ <;> assumption

/-! ### Memory and the font (10_state.md R35 (d), 20_memory.md R57) -/

/-- Memory as an instruction leaves it: as it was, or with one block stored by `LD B` or `LD [I]`, inside memory and
outside the font table. -/
theorem exec_memory (h : exec i s = .next t) : t.M = s.M ∨
    ((∃ x, i = .ldB x) ∨ ∃ x, i = .ldMemVx x) ∧ ∃ a bs, a + bs.length ≤ Config.memSize ∧
      ¬ meetsFont a bs.length ∧ t.M = s.M.writeAll a bs := by
  cases i with
  | ldB x =>
    obtain ⟨c, rfl⟩ | ⟨hin, hfont, rfl⟩ := finish_store_cases h
    · exact .inl rfl
    · exact .inr ⟨.inl ⟨x, rfl⟩, _, _, hin, hfont, rfl⟩
  | ldMemVx x =>
    obtain ⟨c, rfl⟩ | ⟨hin, hfont, rfl⟩ := finish_store_cases h
    · exact .inl rfl
    · exact .inr ⟨.inr ⟨x, rfl⟩, _, _, hin, hfont, rfl⟩
  | ret => obtain ⟨c, rfl⟩ | ⟨k, _, rfl⟩ := exec_ret_cases h <;> exact .inl rfl
  | call _ => obtain ⟨c, rfl⟩ | ⟨_, rfl⟩ := exec_call_cases h <;> exact .inl rfl
  | skp _ => obtain ⟨c, rfl⟩ | ⟨_, rfl⟩ := finish_key_cases (f := id) h <;> exact .inl rfl
  | sknp _ => obtain ⟨c, rfl⟩ | ⟨_, rfl⟩ := finish_key_cases (f := not) h <;> exact .inl rfl
  | drw _ _ _ => obtain ⟨c, rfl⟩ | ⟨_, _, rfl⟩ := exec_drw_cases h <;> exact .inl rfl
  | ldVxMem _ => obtain ⟨c, rfl⟩ | ⟨_, _, rfl⟩ := exec_ldVxMem_cases h <;> exact .inl rfl
  | ldVxK _ => obtain ⟨_, rfl⟩ | rfl := exec_ldVxK_cases h <;> exact .inl rfl
  | _ => cases h; exact .inl rfl

/-- A block outside the font table leaves every font byte alone, in every memory. -/
theorem Memory.read_writeAll_font (m : Memory) {a b : Nat} {bs : List Byte} (h : ¬ meetsFont a bs.length)
    (hb : inFont b) : (m.writeAll a bs).read b = m.read b := by
  refine m.read_writeAll_out bs ?_
  by_contra hcon
  obtain ⟨k, rfl⟩ := Nat.exists_eq_add_of_le (show a ≤ b by omega)
  exact h ⟨k, by omega, hb⟩

theorem exec_font (h : exec i s = .next t) {a : Nat} (ha : inFont a) : t.M.read a = s.M.read a := by
  obtain hM | ⟨-, b, bs, -, hfont, hM⟩ := exec_memory h
  · rw [hM]
  · rw [hM, Memory.read_writeAll_font _ hfont ha]

theorem step_font (h : step s = .next t) {a : Nat} (ha : inFont a) : t.M.read a = s.M.read a := by
  obtain ⟨-, rfl⟩ | ⟨-, c, -, rfl⟩ | ⟨w, i, u, -, -, hu, rfl⟩ | ⟨w, r, -, -, rfl⟩ := step_cases h
  · rfl
  · rfl
  · rw [State.endStep_M, exec_font hu ha, State.begin_M]
  · simp

/-- Settles O19: the one block an instruction stores misses the font table. -/
theorem fontNeverChanges : Obligations.FontNeverChanges := by
  intro s t a hlo hhi h
  exact step_font h ⟨hlo, Nat.lt_succ_of_le hhi⟩

/-! ### Who writes what (10_state.md R23, R32) -/

/-- Settles O21: a changed `VF` is a place the instruction's rule names. -/
theorem flagHasTheseWriters : Obligations.FlagHasTheseWriters := by
  intro i s t h hne
  exact flag_mem_writesOf ((exec_same_or_named h (.v VF) nofun).resolve_left hne)

/-- No handler writes the keypad. -/
theorem exec_keys (h : exec i s = .next t) : t.K = s.K :=
  Vector.ext fun k hk => (exec_same_or_named h (.key ⟨k, hk⟩) nofun).resolve_right (key_not_mem_writesOf _)

@[simp] theorem State.endStep_K (s : State) : s.endStep.K = s.K := by
  unfold State.endStep
  split <;> rfl

theorem step_keys (h : step s = .next t) : t.K = s.K := by
  obtain ⟨-, rfl⟩ | ⟨-, c, -, rfl⟩ | ⟨w, i, u, -, -, hu, rfl⟩ | ⟨w, r, -, -, rfl⟩ := step_cases h
  · rfl
  · rfl
  · rw [State.endStep_K, exec_keys hu, State.begin_K]
  · simp

/-- Only `RET` and `CALL` change the stack or its pointer. -/
theorem exec_stack_or_writer (h : exec i s = .next t) :
    (t.S = s.S ∧ t.SP = s.SP) ∨ i = .ret ∨ ∃ nnn, i = .call nnn := by
  refine or_iff_not_imp_right.mpr fun hi => ⟨Vector.ext fun k hk => ?_, ?_⟩
  · exact (exec_same_or_named h (.stack ⟨k, hk⟩) nofun).resolve_right (hi ∘ stack_mem_writesOf)
  · exact (exec_same_or_named h .sp nofun).resolve_right (hi ∘ sp_mem_writesOf)

/-- Only `CLS` and `DRW` change the framebuffer. -/
theorem exec_display_or_writer (h : exec i s = .next t) : t.FB = s.FB ∨ i = .cls ∨ ∃ x y n, i = .drw x y n := by
  refine or_iff_not_imp_right.mpr fun hi => Vector.ext fun r hr => Vector.ext fun c hc => ?_
  exact (exec_same_or_named h (.pixel ⟨c, hc⟩ ⟨r, hr⟩) nofun).resolve_right (hi ∘ pixel_mem_writesOf)

/-- Settles O20: by the frame of every instruction, and by `exec_memory` for memory as a list. -/
theorem fieldsHaveTheseWriters : Obligations.FieldsHaveTheseWriters := by
  refine ⟨fun s t => step_keys, fun i s t h =>
    ⟨?ir, ?memory, exec_stack_or_writer h, exec_display_or_writer h, ?index, ?dt, ?st⟩⟩
  case ir => exact (exec_same_or_named h .ir nofun).resolve_right ir_not_mem_writesOf
  case memory => exact (exec_memory h).imp_right And.left
  case index => exact (exec_same_or_named h .index nofun).imp_right index_mem_writesOf
  case dt => exact (exec_same_or_named h .dt nofun).imp_right dt_mem_writesOf
  case st => exact (exec_same_or_named h .st nofun).imp_right st_mem_writesOf

/-! ### The invariant (10_state.md R34, R35) -/

/-- Settles O18: at reset nothing is listed in memory, pushed or faulted. -/
theorem resetHasInv : Obligations.ResetHasInv where
  memory := State.reset_wf
  font a _ := Memory.read_nil a
  stack k hk := absurd hk (Nat.not_lt_zero k.val)
  pcBound := by decide
  outputs h := absurd rfl h

/-- A skip or an advance from a fetchable address stays within the bound of `pc`. -/
theorem skipIf_next_bound {pc : Word} (h : pc.toNat ≤ 0xFFE) (c : Bool) : ((skipIf c).next pc).toNat ≤ 0x10FE := by
  cases c
  · exact show (pc + 2#16).toNat ≤ 0x10FE by bv_omega
  · exact show (pc + 4#16).toNat ≤ 0x10FE by bv_omega

theorem advance_bound {pc : Word} (h : pc.toNat ≤ 0xFFE) : (pc + 2#16).toNat ≤ 0x10FE :=
  skipIf_next_bound h false

theorem addrOperand_bound (nnn : Addr) : (addrOperand nnn).toNat ≤ 0x10FE := by
  have := nnn.isLt
  rw [addrOperand_toNat]
  omega

/-- The bound of `pc` is the largest sum of `JP V0`, 0xFF + 0xFFF (41_control_flow.md R128; D24, log 22). -/
theorem jumpV0_bound (b : Byte) (nnn : Addr) : (b.setWidth 16 + addrOperand nnn : Word).toNat ≤ 0x10FE := by
  have := b.isLt
  have := nnn.isLt
  rw [BitVec.toNat_add, addrOperand_toNat, BitVec.toNat_setWidth]
  omega

/-- Where an instruction at a fetchable address may take `pc` (40_cycle_driver.md R106). -/
theorem exec_pc_bound (hs : s.Inv) (hf : s.fetchable) (h : exec i s = .next t) : t.pc.toNat ≤ 0x10FE := by
  cases i with
  | jp nnn => cases h; exact addrOperand_bound nnn
  | jpV0 nnn => cases h; exact jumpV0_bound _ nnn
  | call nnn =>
    obtain ⟨c, rfl⟩ | ⟨_, rfl⟩ := exec_call_cases h
    · exact hs.pcBound
    · exact addrOperand_bound nnn
  | ret =>
    obtain ⟨c, rfl⟩ | ⟨k, hk, rfl⟩ := exec_ret_cases h
    · exact hs.pcBound
    · exact advance_bound (hs.stack k (by omega)).1
  | seImm _ _ | sneImm _ _ | seReg _ _ _ | sneReg _ _ _ => cases h; exact skipIf_next_bound hf.1 _
  | skp _ =>
    obtain ⟨c, rfl⟩ | ⟨c, rfl⟩ := finish_key_cases (f := id) h
    · exact hs.pcBound
    · exact skipIf_next_bound hf.1 c
  | sknp _ =>
    obtain ⟨c, rfl⟩ | ⟨c, rfl⟩ := finish_key_cases (f := not) h
    · exact hs.pcBound
    · exact skipIf_next_bound hf.1 c
  | ldVxK _ =>
    obtain ⟨_, rfl⟩ | rfl := exec_ldVxK_cases h
    · exact advance_bound hf.1
    · exact hs.pcBound
  | drw _ _ _ =>
    obtain ⟨c, rfl⟩ | ⟨_, _, rfl⟩ := exec_drw_cases h
    · exact hs.pcBound
    · exact advance_bound hf.1
  | ldVxMem _ =>
    obtain ⟨c, rfl⟩ | ⟨_, _, rfl⟩ := exec_ldVxMem_cases h
    · exact hs.pcBound
    · exact advance_bound hf.1
  | ldB _ | ldMemVx _ =>
    obtain ⟨c, rfl⟩ | ⟨_, _, rfl⟩ := finish_store_cases h
    · exact hs.pcBound
    · exact advance_bound hf.1
  | _ => cases h; exact advance_bound hf.1

/-- `CALL` pushes its own address, which was fetched; `RET` uncovers no slot; nothing else touches the stack. -/
theorem exec_stack_aligned (hs : s.Inv) (hf : s.fetchable) (h : exec i s = .next t) (k : Fin 16)
    (hk : k.val < t.SP.val) : t.S[k.val].toNat ≤ 0xFFE ∧ t.S[k.val].toNat % 2 = 0 := by
  obtain ⟨hS, hSP⟩ | rfl | ⟨nnn, rfl⟩ := exec_stack_or_writer h
  · rw [hSP] at hk
    simpa only [hS] using hs.stack k hk
  · obtain ⟨c, rfl⟩ | ⟨j, hj, rfl⟩ := exec_ret_cases h
    · exact hs.stack k hk
    · have hkj : k.val < j.val := hk
      exact hs.stack k (by omega)
  · obtain ⟨c, rfl⟩ | ⟨hsp, rfl⟩ := exec_call_cases h
    · exact hs.stack k hk
    · have hle : k.val < s.SP.val + 1 := hk
      simp only [State.setPc_S, State.setStack_S, Vector.getElem_set]
      split
      · exact hf
      · exact hs.stack k (by omega)

theorem exec_keeps_wf (hs : s.M.wf) (h : exec i s = .next t) : t.M.wf := by
  obtain hM | ⟨-, a, bs, hin, -, hM⟩ := exec_memory h
  · rwa [hM]
  · rw [hM]
    exact Memory.wf_writeAll hs bs hin

/-- A handler keeps the invariant, from a fetched state whose outputs are cleared. -/
theorem exec_keeps_inv (hs : s.Inv) (hf : s.fetchable) (hu : s.unknown = false) (he : s.soundExpired = false)
    (h : exec i s = .next t) : t.Inv where
  memory := exec_keeps_wf hs.memory h
  font a ha := (exec_font h ha).trans (hs.font a ha)
  stack := exec_stack_aligned hs hf h
  pcBound := exec_pc_bound hs hf h
  outputs _ := by
    have hun := (exec_same_or_named h .unknown nofun).resolve_right unknown_not_mem_writesOf
    have hex := (exec_same_or_named h .soundExpired nofun).resolve_right soundExpired_not_mem_writesOf
    exact ⟨hun.trans hu, hex.trans he⟩

/-- The start of a step keeps the invariant: `IR` is not in it, and a running core's outputs are free. -/
theorem State.Inv.begin (hs : s.Inv) (hr : s.running) (w : Word) (u : Bool) : (s.begin w u).Inv where
  memory := hs.memory
  font := hs.font
  stack := hs.stack
  pcBound := hs.pcBound
  outputs hf := absurd hr hf

theorem State.Inv.setPc (hs : s.Inv) {w : Word} (hw : w.toNat ≤ 0x10FE) : (s.setPc w).Inv where
  memory := hs.memory
  font := hs.font
  stack := hs.stack
  pcBound := hw
  outputs := hs.outputs

/-- A core with both other outputs false may be in a fault. -/
theorem State.Inv.quiet (hs : s.Inv) : (s.setOutputs false false).Inv where
  memory := hs.memory
  font := hs.font
  stack := hs.stack
  pcBound := hs.pcBound
  outputs _ := ⟨rfl, rfl⟩

theorem State.Inv.raise (hs : s.Inv) (hu : s.unknown = false) (he : s.soundExpired = false) (c : Cause) :
    (s.raise c).Inv where
  memory := hs.memory
  font := hs.font
  stack := hs.stack
  pcBound := hs.pcBound
  outputs _ := ⟨hu, he⟩

/-- The end of a step keeps the invariant: only a running core ticks, and its expiry signal is free. -/
theorem State.Inv.endStep (hs : s.Inv) : s.endStep.Inv := by
  by_cases hr : s.running
  · rw [State.endStep_running hr]
    exact ⟨hs.memory, hs.font, hs.stack, hs.pcBound, fun hf => absurd hr hf⟩
  · rwa [State.endStep_faulted hr]

/-- Settles O17: by what a step can do, and `exec_keeps_inv` for the handler. -/
theorem stepKeepsInv : Obligations.StepKeepsInv := by
  intro s t hs h
  obtain ⟨-, rfl⟩ | ⟨-, c, -, rfl⟩ | ⟨w, i, u, ⟨hr, hf, -⟩, -, hu, rfl⟩ | ⟨w, r, ⟨hr, hf, -⟩, -, rfl⟩ := step_cases h
  · exact hs.quiet
  · exact hs.quiet.raise rfl rfl c
  · exact (exec_keeps_inv (hs.begin hr w false) hf rfl rfl hu).endStep
  · exact ((hs.begin hr w true).setPc (advance_bound hf.1)).endStep

/-! ### Reset (10_state.md R34, 70_reset_and_hazards.md R290) -/

theorem unlisted_of_not_font {a : Nat} (h : ¬ inFont a) : unlisted a = 0#8 := if_neg h

/-- Settles O22: memory lists nothing at reset, so every address reads as unlisted. -/
theorem resetState : Obligations.ResetState := by
  refine ⟨fun s => rfl, fun x => ?v, rfl, rfl, rfl, fun k => ?stack, rfl, rfl, fun k => ?keys, fun c r => ?pixels, rfl,
    rfl, fun a ha => ?zeros, ?_, ?_, ?_, ?_⟩
  case v => exact Vector.getElem_replicate x.isLt
  case stack => exact Vector.getElem_replicate k.isLt
  case keys => exact Vector.getElem_replicate k.isLt
  case pixels => exact Framebuffer.pixel_blank c r
  case zeros => exact unlisted_of_not_font (by simp only [inFont, Config.fontBase, Config.fontSize]; omega)
  all_goals decide

end Sys2Proof.Machine
end

section
/-! The memory primitives of 20_memory.md: what `MemRead` and `MemWrite` answer, the byte order of a fetch, and the
bytes `LD [I], Vx` leaves for it. -/

namespace Sys2Proof.Machine

variable {s t : State} {a : Nat}

/-! ### MemWrite: range, then font, then the byte (20_memory.md R53; D8, D11) -/

theorem State.memWrite_out (s : State) (b : Byte) (h : Config.memSize ≤ a) :
    s.memWrite a b = .error .dataOutOfRange := if_pos h

theorem State.memWrite_font (s : State) (b : Byte) (h : inFont a) : s.memWrite a b = .error .fontWrite := by
  obtain ⟨hlo, hhi⟩ := h
  have hin : ¬ Config.memSize ≤ a := by
    simp only [Config.memSize, Config.fontBase, Config.fontSize] at hhi ⊢
    omega
  exact (if_neg hin).trans (if_pos ⟨hlo, hhi⟩)

theorem State.memWrite_ok (s : State) (b : Byte) (ha : a < Config.memSize) (hf : ¬ inFont a) :
    s.memWrite a b = .ok (s.setM (s.M.write a b)) :=
  (if_neg (Nat.not_le.mpr ha)).trans (if_neg hf)

theorem onlyWrites_write (s : State) (a : Nat) (b : Byte) : OnlyWrites [.mem a] s (s.setM (s.M.write a b)) :=
  onlyWrites_setM s _ fun a' ha' => Memory.read_write_ne _ b fun he => ha' (by simp [he])

/-- Settles O23: one clause per answer of the two primitives; the written byte reads back in canonical memory. -/
theorem memoryPrimitives : Obligations.MemoryPrimitives := by
  refine fun s a b => ⟨rfl, s.memWrite_out b, fun hlo hhi => s.memWrite_font b ⟨hlo, Nat.lt_succ_of_le hhi⟩,
    fun ha hout => ⟨s.setM (s.M.write a b), s.memWrite_ok b ha ?outside, fun hwf => ?canonical, onlyWrites_write s a b⟩⟩
  case outside =>
    rintro ⟨hlo, hhi⟩
    simp only [Config.fontBase, Config.fontSize] at hlo hhi
    omega
  case canonical => exact ⟨Memory.wf_write hwf ha b, Memory.read_write_same hwf.1 a b⟩

/-! ### FetchWord (20_memory.md R54) -/

/-- Two bytes side by side: the first is the high byte. -/
theorem toNat_append_byte (hi lo : Byte) : (hi ++ lo : Word).toNat = hi.toNat * 256 + lo.toNat := by
  rw [BitVec.toNat_append, ← Nat.shiftLeft_add_eq_or_of_lt lo.isLt, Nat.shiftLeft_eq]

/-- Settles O24: the fetched word is the two bytes side by side. -/
theorem fetchIsBigEndian : Obligations.FetchIsBigEndian :=
  fun _ _ => toNat_append_byte _ _

/-! ### A stored block and the fetch (20_memory.md R55, R63) -/

/-- A store instruction that leaves the core running stored its whole block: both its faults set `FAULT`. -/
theorem finish_store_running {bs : List Byte}
    (h : s.finish (do let u ← s.storeBytes a bs; return (u, .advance)) = .next t) (ht : t.running) :
    a + bs.length ≤ Config.memSize ∧ ¬ meetsFont a bs.length ∧
      t = (s.setM (s.M.writeAll a bs)).setPc (s.pc + 2#16) := by
  rw [finish_store] at h
  split at h
  · cases h; cases ht
  · split at h
    · cases h; cases ht
    · cases h; exact ⟨Nat.not_lt.mp ‹_›, ‹_›, rfl⟩

/-- After `LD [I], Vx` without a fault, `M[I + k]` is `V[k]` (43_index_memory.md R174). -/
theorem exec_ldMemVx_read {x : Reg} (hs : s.M.wf) (h : exec (.ldMemVx x) s = .next t) (ht : t.running) {k : Nat}
    (hk : k ≤ x.toNat) : t.M.read (s.I.toNat + k) = s.v (BitVec.ofNat 4 k) := by
  obtain ⟨hin, -, rfl⟩ := finish_store_running h ht
  have hlen : k < (s.vUpTo x).length := by
    rw [s.length_vUpTo]
    exact Nat.lt_succ_of_le hk
  exact (Memory.read_writeAll_in hs hin hlen).trans (s.getElem_vUpTo x hlen)

/-- Settles O25: the fetch joins the bytes at `I + k` and `I + (k + 1)`, both stored. -/
theorem storeIsSeenByFetch : Obligations.StoreIsSeenByFetch := by
  intro s t x k hs _ h ht hk
  have hhi := exec_ldMemVx_read hs h ht (Nat.le_of_succ_le hk)
  have hlo := exec_ldMemVx_read hs h ht hk
  exact congrArg₂ (fun hi lo : Byte => (hi ++ lo : Word)) hhi hlo

end Sys2Proof.Machine
end

section
/-! The encoding of 30_encoding.md: decoder and encoder as inverses of each other, the words that select no operation,
the decoder against Table E-1, and the step over a rejected word. -/

namespace Sys2Proof

variable {w : Word} {i : Instr}

/-! ### A word from its fields (30_encoding.md R71) -/

theorem wordNnn_eq {op : Nib} {nnn : Addr} (hop : opOf w = op) (hnnn : nnnOf w = nnn) : wordNnn op nnn = w := by
  rw [← hop, ← hnnn, wordNnn_fields]

theorem wordXkk_eq {op : Nib} {kk : Byte} (hop : opOf w = op) (hkk : kkOf w = kk) : wordXkk op (xOf w) kk = w := by
  rw [← hop, ← hkk, wordXkk_fields]

theorem wordXyn_eq {op n : Nib} (hop : opOf w = op) (hn : nOf w = n) : wordXyn op (xOf w) (yOf w) n = w := by
  rw [← hop, ← hn, wordXyn_fields]

/-- The last arm of the decoder's first level has no test of its own: 15 of the 16 families are tested before it
(R73). -/
theorem opOf_cases (w : Word) :
    opOf w = 0x0#4 ∨ opOf w = 0x1#4 ∨ opOf w = 0x2#4 ∨ opOf w = 0x3#4 ∨ opOf w = 0x4#4 ∨ opOf w = 0x5#4 ∨
    opOf w = 0x6#4 ∨ opOf w = 0x7#4 ∨ opOf w = 0x8#4 ∨ opOf w = 0x9#4 ∨ opOf w = 0xA#4 ∨ opOf w = 0xB#4 ∨
    opOf w = 0xC#4 ∨ opOf w = 0xD#4 ∨ opOf w = 0xE#4 ∨ opOf w = 0xF#4 := by
  generalize opOf w = op
  revert op
  decide

/-! ### The decoder after the encoder (R71, R80) -/

theorem decodeWord_encode (hi : i.wellFormed = true) : decodeWord (encode i) = .ok i := by
  cases i with
  | cls | ret => rfl
  | sys nnn =>
    obtain ⟨hcls, hret⟩ : nnn ≠ 0x0E0#12 ∧ nnn ≠ 0x0EE#12 := by simpa [Instr.wellFormed] using hi
    simp [encode, decodeWord, decodeFamily0, hcls, hret]
  | ldReg _ _ | orReg _ _ | andReg _ _ | xorReg _ _ | addReg _ _ | sub _ _ | shr _ _ | subn _ _ | shl _ _ =>
    simp [encode, decodeWord, decodeFamily8]
  | skp _ | sknp _ => simp [encode, decodeWord, decodeFamilyE]
  | ldVxDT _ | ldVxK _ | ldDTVx _ | ldSTVx _ | addI _ | ldF _ | ldB _ | ldMemVx _ | ldVxMem _ =>
    simp [encode, decodeWord, decodeFamilyF]
  | _ => simp [encode, decodeWord]

/-- The two bytes of an instruction are read as its word (20_memory.md R54). -/
theorem decode_encodeBytes (h : decodeWord (encode i) = .ok i) (rest : List Byte) :
    decode (encodeBytes i ++ rest) = .ok (i, rest) := by
  simp only [encodeBytes, List.cons_append, List.nil_append, decode, word_of_bytes, h]

/-- Settles O2: the fields the encoder lays out are the ones the decoder reads. -/
theorem decodeOfEncode : Obligations.DecodeOfEncode :=
  fun _ hi => ⟨decodeWord_encode hi, decode_encodeBytes (decodeWord_encode hi)⟩

/-! ### The encoder after the decoder (R80) -/

theorem encode_decodeFamily0 (hop : opOf w = 0x0#4) :
    (decodeFamily0 w).wellFormed = true ∧ encode (decodeFamily0 w) = w := by
  unfold decodeFamily0
  split_ifs with hcls hret
  · exact ⟨rfl, wordNnn_eq hop hcls⟩
  · exact ⟨rfl, wordNnn_eq hop hret⟩
  · exact ⟨by simp [Instr.wellFormed, hcls, hret], wordNnn_eq hop rfl⟩

theorem encode_of_decodeFamily8 (hop : opOf w = 0x8#4) (h : decodeFamily8 w = .ok i) :
    i.wellFormed = true ∧ encode i = w := by
  unfold decodeFamily8 at h
  repeat' split at h
  all_goals cases h <;> exact ⟨rfl, wordXyn_eq hop ‹_›⟩

theorem encode_of_decodeFamilyE (hop : opOf w = 0xE#4) (h : decodeFamilyE w = .ok i) :
    i.wellFormed = true ∧ encode i = w := by
  unfold decodeFamilyE at h
  repeat' split at h
  all_goals cases h <;> exact ⟨rfl, wordXkk_eq hop ‹_›⟩

theorem encode_of_decodeFamilyF (hop : opOf w = 0xF#4) (h : decodeFamilyF w = .ok i) :
    i.wellFormed = true ∧ encode i = w := by
  unfold decodeFamilyF at h
  repeat' split at h
  all_goals cases h <;> exact ⟨rfl, wordXkk_eq hop ‹_›⟩

/-- Settles O3: each family answers a term that holds every field of the word. -/
theorem encodeOfDecode : Obligations.EncodeOfDecode := by
  intro w i h
  obtain hop | hop | hop | hop | hop | hop | hop | hop | hop | hop | hop | hop | hop | hop | hop | hop :=
    opOf_cases w <;> rw [decodeWord, hop] at h
  · cases h; exact encode_decodeFamily0 hop
  · cases h; exact ⟨rfl, wordNnn_eq hop rfl⟩
  · cases h; exact ⟨rfl, wordNnn_eq hop rfl⟩
  · cases h; exact ⟨rfl, wordXkk_eq hop rfl⟩
  · cases h; exact ⟨rfl, wordXkk_eq hop rfl⟩
  · cases h; exact ⟨rfl, wordXyn_eq hop rfl⟩
  · cases h; exact ⟨rfl, wordXkk_eq hop rfl⟩
  · cases h; exact ⟨rfl, wordXkk_eq hop rfl⟩
  · exact encode_of_decodeFamily8 hop h
  · cases h; exact ⟨rfl, wordXyn_eq hop rfl⟩
  · cases h; exact ⟨rfl, wordNnn_eq hop rfl⟩
  · cases h; exact ⟨rfl, wordNnn_eq hop rfl⟩
  · cases h; exact ⟨rfl, wordXkk_eq hop rfl⟩
  · cases h; exact ⟨rfl, wordXyn_eq hop rfl⟩
  · exact encode_of_decodeFamilyE hop h
  · exact encode_of_decodeFamilyF hop h

/-! ### The words that select no operation (R75 to R77, R81) -/

/-- The `n` that select an operation of family 8 (R75). -/
def selectors8 : List Nib := [0x0, 0x1, 0x2, 0x3, 0x4, 0x5, 0x6, 0x7, 0xE]
/-- The `kk` that select an operation of family E (R76). -/
def selectorsE : List Byte := [0x9E, 0xA1]
/-- The `kk` that select an operation of family F (R77). -/
def selectorsF : List Byte := [0x07, 0x0A, 0x15, 0x18, 0x1E, 0x29, 0x33, 0x55, 0x65]

theorem decodeFamily8_rejects_iff : (∃ r, decodeFamily8 w = .error r) ↔ nOf w ∉ selectors8 := by
  unfold decodeFamily8
  repeat' split
  all_goals simp [selectors8, *]

theorem decodeFamilyE_rejects_iff : (∃ r, decodeFamilyE w = .error r) ↔ kkOf w ∉ selectorsE := by
  unfold decodeFamilyE
  repeat' split
  all_goals simp [selectorsE, *]

theorem decodeFamilyF_rejects_iff : (∃ r, decodeFamilyF w = .error r) ↔ kkOf w ∉ selectorsF := by
  unfold decodeFamilyF
  repeat' split
  all_goals simp [selectorsF, *]

/-- R81 over the fields of the word: families 8, E and F have a second level that can reject, the others none. -/
theorem decodeWord_rejects_iff : (∃ r, decodeWord w = .error r) ↔
    (opOf w = 0x8#4 ∧ nOf w ∉ selectors8) ∨ (opOf w = 0xE#4 ∧ kkOf w ∉ selectorsE) ∨
    (opOf w = 0xF#4 ∧ kkOf w ∉ selectorsF) := by
  rw [← decodeFamily8_rejects_iff, ← decodeFamilyE_rejects_iff, ← decodeFamilyF_rejects_iff]
  obtain hop | hop | hop | hop | hop | hop | hop | hop | hop | hop | hop | hop | hop | hop | hop | hop :=
    opOf_cases w <;> simp [decodeWord, hop]

theorem not_mem_selectors8_iff (n : Nib) : n ∉ selectors8 ↔ n.toNat ∈ [8, 9, 0xA, 0xB, 0xC, 0xD, 0xF] := by
  revert n
  decide

/-- Settles O5: the rejected fields, read as numbers. -/
theorem unknownWordsAreThese : Obligations.UnknownWordsAreThese := by
  intro w
  rw [decodeWord_rejects_iff, not_mem_selectors8_iff,
    ← List.mem_map_of_injective (l := selectorsE) BitVec.toNat_injective,
    ← List.mem_map_of_injective (l := selectorsF) BitVec.toNat_injective]
  simp only [← BitVec.toNat_inj, opOf_toNat, nOf_toNat, kkOf_toNat]
  rfl

/-! ### Table E-1 (R80) -/

theorem encode_matches_row : ∀ i : Instr, Laws.EncodeRow.Statement i
  | .cls => Laws.EncodeRow.cls
  | .ret => Laws.EncodeRow.ret
  | .sys _ => Laws.EncodeRow.sys _
  | .jp _ => Laws.EncodeRow.jp _
  | .call _ => Laws.EncodeRow.call _
  | .seImm _ _ => Laws.EncodeRow.seImm _ _
  | .sneImm _ _ => Laws.EncodeRow.sneImm _ _
  | .seReg _ _ _ => Laws.EncodeRow.seReg _ _ _
  | .ldImm _ _ => Laws.EncodeRow.ldImm _ _
  | .addImm _ _ => Laws.EncodeRow.addImm _ _
  | .ldReg _ _ => Laws.EncodeRow.ldReg _ _
  | .orReg _ _ => Laws.EncodeRow.orReg _ _
  | .andReg _ _ => Laws.EncodeRow.andReg _ _
  | .xorReg _ _ => Laws.EncodeRow.xorReg _ _
  | .addReg _ _ => Laws.EncodeRow.addReg _ _
  | .sub _ _ => Laws.EncodeRow.sub _ _
  | .shr _ _ => Laws.EncodeRow.shr _ _
  | .subn _ _ => Laws.EncodeRow.subn _ _
  | .shl _ _ => Laws.EncodeRow.shl _ _
  | .sneReg _ _ _ => Laws.EncodeRow.sneReg _ _ _
  | .ldI _ => Laws.EncodeRow.ldI _
  | .jpV0 _ => Laws.EncodeRow.jpV0 _
  | .rnd _ _ => Laws.EncodeRow.rnd _ _
  | .drw _ _ _ => Laws.EncodeRow.drw _ _ _
  | .skp _ => Laws.EncodeRow.skp _
  | .sknp _ => Laws.EncodeRow.sknp _
  | .ldVxDT _ => Laws.EncodeRow.ldVxDT _
  | .ldVxK _ => Laws.EncodeRow.ldVxK _
  | .ldDTVx _ => Laws.EncodeRow.ldDTVx _
  | .ldSTVx _ => Laws.EncodeRow.ldSTVx _
  | .addI _ => Laws.EncodeRow.addI _
  | .ldF _ => Laws.EncodeRow.ldF _
  | .ldB _ => Laws.EncodeRow.ldB _
  | .ldMemVx _ => Laws.EncodeRow.ldMemVx _
  | .ldVxMem _ => Laws.EncodeRow.ldVxMem _

/-- Only the row of `SYS` overlaps a row above it: any other two rows differ in a bit that both masks select. -/
theorem tableE1_rows_disjoint : ∀ k j : Fin tableE1.length, j < k → k.val ≠ 2 →
    tableE1[j].2 &&& tableE1[k].1 ≠ tableE1[k].2 &&& tableE1[j].1 := by decide

theorem eq_sys_of_row (h : i.row = 2) : ∃ nnn, i = .sys nnn := by
  cases i <;> simp [Instr.row] at h ⊢

/-- The two rows above `SYS` are whole words, which decode to `CLS` and `RET` (R74). -/
theorem encode_sys_ne_rows_above {nnn : Addr} (hi : (Instr.sys nnn).wellFormed = true) :
    ∀ j : Fin 2, encode (.sys nnn) &&& tableE1[j].1 ≠ tableE1[j].2 := by
  have hd := decodeWord_encode hi
  have hcls : encode (.sys nnn) ≠ 0x00E0#16 := fun h => by rw [h] at hd; cases hd
  have hret : encode (.sys nnn) ≠ 0x00EE#16 := fun h => by rw [h] at hd; cases hd
  intro j
  fin_cases j
  · show encode (.sys nnn) &&& BitVec.allOnes 16 ≠ 0x00E0#16
    rwa [BitVec.and_allOnes]
  · show encode (.sys nnn) &&& BitVec.allOnes 16 ≠ 0x00EE#16
    rwa [BitVec.and_allOnes]

/-- The first row that an instruction's word matches is its own. -/
theorem rowOf_encode (hi : i.wellFormed = true) : rowOf (encode i) = some i.row := by
  obtain ⟨e, he, hm⟩ := encode_matches_row i
  obtain ⟨hlt, rfl⟩ := List.getElem?_eq_some_iff.mp he
  refine List.findIdx?_eq_some_iff_getElem.mpr ⟨hlt, beq_iff_eq.mpr hm, fun j hj hmatch => ?_⟩
  have hmj : encode i &&& tableE1[j].1 = tableE1[j].2 := beq_iff_eq.mp hmatch
  by_cases hrow : i.row = 2
  · obtain ⟨nnn, rfl⟩ := eq_sys_of_row hrow
    exact encode_sys_ne_rows_above hi ⟨j, hj⟩ hmj
  · refine tableE1_rows_disjoint ⟨i.row, hlt⟩ ⟨j, hj.trans hlt⟩ hj hrow ?_
    calc tableE1[j].2 &&& tableE1[i.row].1
        = encode i &&& tableE1[j].1 &&& tableE1[i.row].1 := by rw [hmj]
      _ = encode i &&& tableE1[i.row].1 &&& tableE1[j].1 := by ac_rfl
      _ = tableE1[i.row].2 &&& tableE1[j].1 := by rw [hm]

/-- A field that the mask covers is the field of the match. -/
theorem extractLsb'_of_masked {m v : Word} {start len : Nat} (h : w &&& m = v)
    (hm : m.extractLsb' start len = BitVec.allOnes len) : w.extractLsb' start len = v.extractLsb' start len := by
  rw [← h, BitVec.extractLsb'_and, hm, BitVec.and_allOnes]

/-- Every row masks the family, and in a family with a second level the selector, which is one the decoder knows. -/
theorem tableE1_selectors : ∀ k : Fin tableE1.length, opOf tableE1[k].1 = BitVec.allOnes 4 ∧
    (opOf tableE1[k].2 = 0x8#4 → nOf tableE1[k].1 = BitVec.allOnes 4 ∧ nOf tableE1[k].2 ∈ selectors8) ∧
    (opOf tableE1[k].2 = 0xE#4 → kkOf tableE1[k].1 = BitVec.allOnes 8 ∧ kkOf tableE1[k].2 ∈ selectorsE) ∧
    (opOf tableE1[k].2 = 0xF#4 → kkOf tableE1[k].1 = BitVec.allOnes 8 ∧ kkOf tableE1[k].2 ∈ selectorsF) := by
  decide

/-- A word that matches a row is not rejected. -/
theorem not_rejects_of_match {e : Word × Word} (he : e ∈ tableE1) (h : w &&& e.1 = e.2) :
    ¬ ∃ r, decodeWord w = .error r := by
  obtain ⟨k, hk, rfl⟩ := List.mem_iff_getElem.mp he
  obtain ⟨hop, h8, hE, hF⟩ := tableE1_selectors ⟨k, hk⟩
  have hfam : opOf w = opOf tableE1[k].2 := extractLsb'_of_masked h hop
  rw [decodeWord_rejects_iff, hfam]
  rintro (⟨hf, hn⟩ | ⟨hf, hkk⟩ | ⟨hf, hkk⟩)
  · obtain ⟨hmask, hmem⟩ := h8 hf
    have hsel : nOf w = nOf tableE1[k].2 := extractLsb'_of_masked h hmask
    exact hn (hsel ▸ hmem)
  · obtain ⟨hmask, hmem⟩ := hE hf
    have hsel : kkOf w = kkOf tableE1[k].2 := extractLsb'_of_masked h hmask
    exact hkk (hsel ▸ hmem)
  · obtain ⟨hmask, hmem⟩ := hF hf
    have hsel : kkOf w = kkOf tableE1[k].2 := extractLsb'_of_masked h hmask
    exact hkk (hsel ▸ hmem)

/-- Settles O4: a decoded word is the word of its instruction, and a rejected one matches no row. -/
theorem decoderFollowsTableE1 : Obligations.DecoderFollowsTableE1 := by
  intro w
  cases h : decodeWord w with
  | ok i =>
    obtain ⟨hi, rfl⟩ := encodeOfDecode w i h
    exact (rowOf_encode hi).symm
  | error r =>
    refine (List.findIdx?_eq_none_iff.mpr fun e he => ?_).symm
    exact beq_eq_false_iff_ne.mpr fun hm => not_rejects_of_match he hm ⟨r, h⟩

/-- Settles O1: sixteen decoded and six rejected words, each run through the decoder. -/
theorem specWordsDecode : Obligations.SpecWordsDecode :=
  ⟨by decide, by decide⟩

end Sys2Proof

namespace Sys2Proof.Machine

/-- Settles O7: the step over a rejected word is fetch, advance and tick. -/
theorem unknownWordIsReportedNoOp : Obligations.UnknownWordIsReportedNoOp := by
  intro s w r h hr
  have hrun : ((s.begin w true).setPc (s.pc + 2#16)).running := h.1
  have hstep := step_unknown h hr
  rw [State.endStep_running hrun] at hstep
  refine ⟨_, hstep, rfl, rfl, rfl, State.tick_DT_toNat _, State.tick_ST_toNat _, ?frame⟩
  case frame =>
    have hbegin := onlyWrites_begin s w true (ws := [.pc, .ir, .unknown, .soundExpired, .dt, .st])
      (by simp) (by simp) (by simp)
    exact (hbegin.trans (onlyWrites_setPc _ _ (by simp))).trans (onlyWrites_tick _ (by simp) (by simp) (by simp))

end Sys2Proof.Machine
end

section
/-! The Cycle Driver of 40_cycle_driver.md: what a step over a fetched word answers, where an instruction that does not
fault takes `pc`, and what a fault, a tick and a handler leave as it was. -/

namespace Sys2Proof.Machine

variable {i : Instr} {s t : State} {w : Word}

/-! ### A step answers (R101, R102, R112) -/

/-- What the step over a given word answers: one case of a decoded word, one of a rejected word. -/
theorem step_about_cases (ha : s.about w) :
    (∃ i u, decodeWord w = .ok i ∧ exec i (s.begin w false) = .next u ∧ step s = .next u.endStep) ∨
    ∃ r, decodeWord w = .error r ∧ step s = .next ((s.begin w true).setPc (s.pc + 2#16)).endStep := by
  cases hd : decodeWord w with
  | ok i =>
    obtain ⟨u, hu⟩ := exec_answers i (s.begin w false)
    exact .inl ⟨i, u, rfl, hu, step_decoded ha hd hu⟩
  | error r => exact .inr ⟨r, rfl, step_unknown ha hd⟩

theorem step_answers (s : State) : ∃ t, step s = .next t := by
  by_cases hr : s.running
  · cases hf : s.fetch with
    | error c => exact ⟨_, step_fetch_error hr hf⟩
    | ok w =>
      obtain ⟨hfe, hw⟩ := State.fetch_ok hf
      obtain ⟨_, _, -, -, hstep⟩ | ⟨_, -, hstep⟩ := step_about_cases ⟨hr, hfe, hw⟩
      · exact ⟨_, hstep⟩
      · exact ⟨_, hstep⟩
  · exact ⟨_, step_faulted hr⟩

/-- Settles O10: a handler always ends in a next state, and so do the four cases of a step. -/
theorem everyStepAnswers : Obligations.EveryStepAnswers :=
  ⟨exec_answers, step_answers⟩

/-- Settles O6: the step of a decoded word is `exec` after fetch and the end of the step after `exec`. -/
theorem stepRunsDecodedInstruction : Obligations.StepRunsDecodedInstruction := by
  intro s w i ha hi
  obtain ⟨t, ht⟩ := exec_answers i (s.begin w false)
  exact ⟨t, ht, step_decoded ha hi ht⟩

/-! ### A core that does not fetch (R101, R102) -/

/-- Clearing outputs that are false already changes nothing. -/
theorem State.setOutputs_eq_self (hu : s.unknown = false) (he : s.soundExpired = false) :
    s.setOutputs false false = s :=
  (congrArg₂ s.setOutputs hu he).symm

/-- Settles O8: the step of a faulted core clears its two other outputs, which the invariant holds at false. -/
theorem faultedCoreDoesNothing : Obligations.FaultedCoreDoesNothing := by
  intro s hf
  refine ⟨_, step_faulted hf, rfl, onlyWrites_setOutputs s _ _ (by simp) (by simp), fun hs => ?_⟩
  obtain ⟨hu, he⟩ := hs.outputs hf
  exact State.setOutputs_eq_self hu he

/-- The fault of a fetch, range before alignment (D10, log 13). -/
theorem State.fetch_of_not_fetchable (h : ¬ s.fetchable) :
    s.fetch = .error (if 0xFFE < s.pc.toNat then .fetchOutOfRange else .fetchMisaligned) := by
  unfold State.fetch
  by_cases hr : 0xFFE < s.pc.toNat
  · rw [if_pos hr, if_pos hr]
  · have hodd : s.pc.toNat % 2 = 1 := by
      have hodd : ¬ s.pc.toNat % 2 = 0 := fun he => h ⟨Nat.not_lt.mp hr, he⟩
      omega
    rw [if_neg hr, if_neg hr, if_pos hodd]

/-- Settles O9: the step of a failed fetch clears the outputs and sets `FAULT`. -/
theorem badFetchFaults : Obligations.BadFetchFaults := by
  intro s hr hf
  refine ⟨_, step_fetch_error hr (State.fetch_of_not_fetchable hf), rfl, rfl, rfl, ?frame⟩
  case frame => exact (onlyWrites_setOutputs s _ _ (by simp) (by simp)).trans (onlyWrites_raise _ _ (by simp))

/-! ### A faulting handler (R109, 60_exceptions.md R265) -/

@[simp] theorem State.endStep_FAULT (s : State) : s.endStep.FAULT = s.FAULT := by
  unfold State.endStep
  split <;> rfl

theorem fault_not_mem_writesOf : .fault ∉ writesOf i s := by cases i <;> simp [writesOf]

/-- A handler that sets `FAULT` on a running core writes nothing else (R109; D16, D30, log 19). -/
theorem exec_faulted (hs : s.running) (h : exec i s = .next t) (ht : t.FAULT ≠ .none) : t = s.raise t.FAULT := by
  obtain ⟨c, rfl⟩ | hframe := exec_frame h
  · rfl
  · have hkept : t.FAULT = s.FAULT := hframe .fault fault_not_mem_writesOf
    exact absurd (hkept.trans hs) ht

/-- Settles O12: the handler changed `FAULT` alone, and the end of a faulting step changes nothing. -/
theorem faultingStepIsPrecise : Obligations.FaultingStepIsPrecise := by
  intro s t w ha h ht
  obtain ⟨i, u, -, hu, hstep⟩ | ⟨r, -, hstep⟩ := step_about_cases ha
  · cases h.symm.trans hstep
    rw [State.endStep_FAULT] at ht
    rw [State.endStep_faulted ht]
    exact exec_faulted (s := s.begin w false) ha.1 hu ht
  · cases h.symm.trans hstep
    rw [State.endStep_FAULT] at ht
    exact absurd ha.1 ht

/-! ### The timers from step to step (R107, 44_timers.md R193, R194) -/

/-- A step that does not fault ends in a tick, of timers that only their own load has written. -/
theorem step_about_ticks (ha : s.about w) (h : step s = .next t) (ht : t.running) :
    ∃ u : State, t = u.tick ∧ ((∀ x, decodeWord w ≠ .ok (.ldDTVx x)) → u.DT = s.DT) ∧
      ((∀ x, decodeWord w ≠ .ok (.ldSTVx x)) → u.ST = s.ST) := by
  obtain ⟨i, u, hd, hu, hstep⟩ | ⟨r, -, hstep⟩ := step_about_cases ha
  · cases h.symm.trans hstep
    have hr : u.running := (State.endStep_FAULT u).symm.trans ht
    refine ⟨u, State.endStep_running hr, fun hno => ?_, fun hno => ?_⟩
    · refine (exec_same_or_named hu .dt nofun).resolve_right fun hm => ?_
      obtain ⟨x, rfl⟩ := dt_mem_writesOf hm
      exact hno x hd
    · refine (exec_same_or_named hu .st nofun).resolve_right fun hm => ?_
      obtain ⟨x, rfl⟩ := st_mem_writesOf hm
      exact hno x hd
  · cases h.symm.trans hstep
    exact ⟨(s.begin w true).setPc (s.pc + 2#16), State.endStep_running ha.1, fun _ => rfl, fun _ => rfl⟩

/-- The tick signals exactly when it takes `ST` from 1 to 0 (D21, log 20). -/
theorem State.tick_soundExpired_iff (u : State) :
    u.tick.soundExpired = true ↔ u.ST.toNat = 1 ∧ u.tick.ST.toNat = 0 := by
  have hone : u.ST = 1#8 ↔ u.ST.toNat = 1 := BitVec.toNat_inj.symm
  rw [State.tick_soundExpired, beq_iff_eq, hone, State.tick_ST_toNat]
  omega

/-- Settles O15: the step's tick counts from the timers it found, unless its instruction loads one. -/
theorem timersCountSteps : Obligations.TimersCountSteps := by
  intro s t w ha h ht
  obtain ⟨u, rfl, hDT, hST⟩ := step_about_ticks ha h ht
  refine ⟨fun hno => ?_, fun hno => ?_⟩
  · rw [← hDT hno]
    exact u.tick_DT_toNat
  · rw [← hST hno]
    exact ⟨u.tick_ST_toNat, u.tick_soundExpired_iff⟩

/-! ### The frame of an instruction that does not fault (R104) -/

/-- Settles O16: outside `FAULT` by the frame of every instruction; `FAULT` is clear before and after. -/
theorem handlersWriteOnlyTheirFields : Obligations.HandlersWriteOnlyTheirFields := by
  intro i s t hs h ht l hl
  by_cases hf : l = .fault
  · subst hf
    exact ht.trans hs.symm
  · exact (exec_same_or_named h l hf).resolve_right hl

/-! ### Where an instruction that does not fault takes `pc` (R105, R106) -/

theorem exec_ret_running (h : exec .ret s = .next t) (ht : t.running) :
    ∃ k : Fin 16, s.SP.val = k.val + 1 ∧ t.pc = s.S[k.val] + 2#16 := by
  by_cases hsp : s.SP.val = 0
  · cases h.symm.trans (execRet_empty s hsp)
    cases ht
  · obtain ⟨k, hk⟩ : ∃ k : Fin 16, s.SP.val = k.val + 1 := ⟨⟨s.SP.val - 1, by omega⟩, by simp only; omega⟩
    cases h.symm.trans (execRet_ok s k hk)
    exact ⟨k, hk, rfl⟩

theorem exec_call_running {nnn : Addr} (h : exec (.call nnn) s = .next t) (ht : t.running) :
    t.pc = addrOperand nnn := by
  by_cases hsp : s.SP.val < 16
  · cases h.symm.trans (execCall_ok nnn s hsp)
    rfl
  · cases h.symm.trans (execCall_full nnn s hsp)
    cases ht

theorem exec_drw_running {x y : Reg} {n : Nib} (h : exec (.drw x y n) s = .next t) (ht : t.running) :
    t.pc = s.pc + 2#16 := by
  have h := h.symm.trans (execDrw_eq x y n s)
  split at h
  · cases h; cases ht
  · cases h; rfl

theorem exec_ldVxMem_running {x : Reg} (h : exec (.ldVxMem x) s = .next t) (ht : t.running) :
    t.pc = s.pc + 2#16 := by
  have h := h.symm.trans (execLdVxMem_eq x s)
  split at h
  · cases h; cases ht
  · cases h; rfl

theorem skipIf_next_cases (c : Bool) (pc : Word) : (skipIf c).next pc = pc + 2#16 ∨ (skipIf c).next pc = pc + 4#16 := by
  cases c
  · exact .inl rfl
  · exact .inr rfl

/-- Both key skips, on a key index within the keypad (45_input.md R210, R211). -/
theorem finish_key_running {b : Byte} {f : Bool → Bool}
    (h : s.finish (do let down ← s.key b; return (s, skipIf (f down))) = .next t) (ht : t.running) :
    t.pc = s.pc + 2#16 ∨ t.pc = s.pc + 4#16 := by
  by_cases hb : b.toNat < 16
  · rw [s.key_ok b hb] at h
    cases h
    exact skipIf_next_cases _ _
  · rw [s.key_out b hb] at h
    cases h
    cases ht

/-- `JP V0` does not wrap: the largest sum is 0xFF + 0xFFF (41_control_flow.md R128; D24, log 22). -/
theorem jumpV0_toNat (s : State) (nnn : Addr) :
    (s.wideOperand 0x0#4 + addrOperand nnn).toNat = (s.v 0x0#4).toNat + nnn.toNat := by
  have := (s.v 0x0#4).isLt
  have := nnn.isLt
  rw [BitVec.toNat_add, addrOperand_toNat, State.wideOperand, BitVec.toNat_setWidth]
  omega

theorem State.highestKey_some {k : Nat} (h : s.highestKey = some k) : ∃ j : Fin 16, s.K[j.val] = true := by
  obtain ⟨hk, hdown, -⟩ := (scanKeys_eq_some (Nat.le_refl 16)).mp h
  exact ⟨⟨k, hk⟩, by simpa [Vector.getElem?_eq_getElem hk] using hdown⟩

theorem State.highestKey_none (h : s.highestKey = none) (j : Fin 16) : s.K[j.val] = false := by
  have hup := (scanKeys_eq_none (Nat.le_refl 16)).mp h j.val j.isLt
  simpa [Vector.getElem?_eq_getElem j.isLt] using hup

/-- The key wait goes on exactly with a key pressed (45_input.md R212). -/
theorem exec_ldVxK_nextPc {x : Reg} (h : exec (.ldVxK x) s = .next t) : nextPcOf (.ldVxK x) s t.pc := by
  simp only [exec, execLdVxK] at h
  split at h
  next k hk => cases h; exact .inl ⟨rfl, State.highestKey_some hk⟩
  next hk => cases h; exact .inr ⟨rfl, State.highestKey_none hk⟩

/-- Settles O13: constructor by constructor; those that can fault through what they answer when they do not. -/
theorem nextPcFollowsResult : Obligations.NextPcFollowsResult := by
  intro i s t _ h ht
  cases i with
  | jp nnn => cases h; exact addrOperand_toNat nnn
  | call nnn => exact (congrArg BitVec.toNat (exec_call_running h ht)).trans (addrOperand_toNat nnn)
  | jpV0 nnn => cases h; exact jumpV0_toNat s nnn
  | ret => exact exec_ret_running h ht
  | seImm _ _ | sneImm _ _ | seReg _ _ _ | sneReg _ _ _ => cases h; exact skipIf_next_cases _ _
  | skp _ => exact finish_key_running (f := id) h ht
  | sknp _ => exact finish_key_running (f := not) h ht
  | ldVxK _ => exact exec_ldVxK_nextPc h
  | drw _ _ _ => exact exec_drw_running h ht
  | ldVxMem _ => exact exec_ldVxMem_running h ht
  | ldB _ | ldMemVx _ => obtain ⟨-, -, rfl⟩ := finish_store_running h ht; rfl
  | _ => cases h; rfl

end Sys2Proof.Machine
end

section
/-! Control flow and the call stack (41_control_flow.md): what each jump, skip, call and return answers, and a call
followed by its return. -/

namespace Sys2Proof.Machine

variable {s : State} {nnn : Addr}

/-! ### Jumps (R122, R128) -/

/-- Settles O28: the target is the address, zero-extended. -/
theorem jpJumps : Obligations.JpJumps :=
  fun s nnn => ⟨s.setPc (addrOperand nnn), rfl, addrOperand_toNat nnn, frame_pc s _⟩

/-- Settles O32: the 16-bit sum does not wrap. -/
theorem jpV0Jumps : Obligations.JpV0Jumps :=
  fun s nnn => ⟨s.setPc (s.wideOperand 0x0#4 + addrOperand nnn), rfl, jumpV0_toNat s nnn, frame_pc s _⟩

/-! ### Skips (R124 to R127) -/

/-- The four conditional skips: a skip on a Boolean test of the condition `p`. -/
theorem finish_skipIf (s : State) {c : Bool} {p : Prop} [Decidable p] (hc : c = true ↔ p) :
    ∃ t, s.finish (.ok (s, skipIf c)) = .next t ∧ (t.pc = if p then s.pc + 4#16 else s.pc + 2#16) ∧
      OnlyWrites [.pc] s t := by
  refine ⟨s.setPc ((skipIf c).next s.pc), rfl, ?pc, frame_pc s _⟩
  case pc => simp only [State.setPc_pc, skipIf_next, hc]

/-- Settles O30: both are skips on a test of a register against the immediate. -/
theorem immediateSkips : Obligations.ImmediateSkips :=
  fun s _ _ => ⟨finish_skipIf s beq_iff_eq, finish_skipIf s bne_iff_ne⟩

/-- Settles O31: both are skips on a test of two registers; `n` does not enter. -/
theorem registerSkips : Obligations.RegisterSkips :=
  fun s _ _ _ => ⟨finish_skipIf s beq_iff_eq, finish_skipIf s bne_iff_ne⟩

/-! ### SYS (R120) -/

/-- The step over an instruction that does not fault: its meaning after fetch, and a tick. -/
theorem step_ticks {w : Word} {i : Instr} {u : State} (ha : s.about w) (hd : decodeWord w = .ok i)
    (hu : exec i (s.begin w false) = .next u) (hr : u.running) : step s = .next u.tick :=
  State.endStep_running hr ▸ step_decoded ha hd hu

/-- Settles O26: a family 0 word other than `CLS` and `RET` decodes as `SYS`, whose step is an advance and a tick. -/
theorem sysAdvances : Obligations.SysAdvances := by
  refine ⟨fun s nnn => ⟨s.setPc (s.pc + 2#16), rfl, rfl, frame_pc s _⟩, fun s nnn hcls hret ha => ?_⟩
  have hd : decodeWord (0x0#4 ++ nnn : Word) = .ok (.sys nnn) :=
    decodeWord_encode (i := .sys nnn) (by simp [Instr.wellFormed, hcls, hret])
  exact ⟨_, step_ticks ha hd rfl ha.1, rfl, ha.1, rfl⟩

/-! ### RET and CALL (R121, R123) -/

/-- Settles O27: the pop of a stack that holds an entry leaves the slots alone; the pop of an empty one is a fault. -/
theorem retPopsOrUnderflows : Obligations.RetPopsOrUnderflows := by
  refine ⟨fun s k hk => ⟨_, execRet_ok s k hk, rfl, rfl, ?frame⟩,
    fun s h0 => ⟨_, execRet_empty s h0, rfl, frame_raise s _⟩⟩
  case frame =>
    exact (onlyWrites_setStack s _ _ (by simp) fun _ _ => rfl).trans (onlyWrites_setPc _ _ (by simp))

/-- Settles O29: the push writes the slot at `SP` and no other; on a full stack it is a fault. -/
theorem callPushesOrOverflows : Obligations.CallPushesOrOverflows := by
  refine ⟨fun s nnn k hk => ?_, fun s nnn hfull => ?_⟩
  · have hroom : s.SP.val < 16 := hk ▸ k.isLt
    have hslot : (s.S.set s.SP.val s.pc hroom)[k.val] = s.pc := by simp [hk]
    refine ⟨_, execCall_ok nnn s hroom, hslot, congrArg (· + 1) hk, addrOperand_toNat nnn, ?frame⟩
    case frame =>
      refine (onlyWrites_setStack s _ _ (by simp) fun j hj => ?_).trans (onlyWrites_setPc _ _ (by simp))
      have hne : s.SP.val ≠ j.val := fun he => hj (by simp [Fin.ext (he.symm.trans hk)])
      exact Vector.getElem_set_ne _ _ hne
  · exact ⟨_, execCall_full nnn s (by omega), rfl, frame_raise s _⟩

/-! ### A call and its return (C3, log 29) -/

/-- The step over a CALL with room on the stack. -/
theorem step_call (ha : s.about (0x2#4 ++ nnn : Word)) (hroom : s.SP.val < 16) :
    ∃ t, step s = .next t ∧ t.running ∧ t.pc.toNat = nnn.toNat ∧ t.M = s.M ∧ t.SP.val = s.SP.val + 1 ∧
      t.S[s.SP.val] = s.pc ∧ ∀ x, t.v x = s.v x := by
  have hd : decodeWord (0x2#4 ++ nnn : Word) = .ok (.call nnn) := decodeWord_encode (i := .call nnn) rfl
  have hu := execCall_ok nnn (s.begin (0x2#4 ++ nnn) false) hroom
  exact ⟨_, step_ticks ha hd hu ha.1, ha.1, addrOperand_toNat nnn, rfl, rfl, Vector.getElem_set_self hroom, fun _ => rfl⟩

/-- The step over a RET with `k + 1` entries pushed. -/
theorem step_ret (ha : s.about 0x00EE#16) (k : Fin 16) (hk : s.SP.val = k.val + 1) :
    ∃ t, step s = .next t ∧ t.running ∧ t.pc = s.S[k.val] + 2#16 ∧ t.SP.val = k.val ∧ ∀ x, t.v x = s.v x := by
  have hd : decodeWord 0x00EE#16 = .ok .ret := decodeWord_encode (i := .ret) rfl
  have hu := execRet_ok (s.begin 0x00EE#16 false) k hk
  exact ⟨_, step_ticks ha hd hu ha.1, ha.1, rfl, rfl, fun _ => rfl⟩

/-- Settles O33: the RET pops the slot that the CALL pushed its own address to. -/
theorem callThenRetResumes : Obligations.CallThenRetResumes := by
  intro s nnn ha hroom hmax heven hret
  obtain ⟨t, hcall, htrun, htpc, htM, htSP, hslot, htv⟩ := step_call ha hroom
  have habout : t.about 0x00EE#16 := by
    refine ⟨htrun, ?fetchable, ?word⟩
    case fetchable => exact ⟨htpc ▸ hmax, htpc ▸ heven⟩
    case word => rw [htpc, htM, hret]
  obtain ⟨u, hstep, hurun, hupc, huSP, huv⟩ := step_ret habout ⟨s.SP.val, hroom⟩ htSP
  exact ⟨t, u, hcall, hstep, hurun, by rw [hupc, hslot], Fin.ext huSP, fun x => (huv x).trans (htv x)⟩

end Sys2Proof.Machine
end

section
/-! The register and arithmetic instructions (42_register_alu.md): what a handler that loads one register leaves, with
and without a flag, and the arithmetic of the results and the flags. -/

namespace Sys2Proof.Machine

variable (s : State) {x : Reg} {b : Byte}

/-! ### The two handler shapes -/

/-- A handler that loads `V[x]` and advances: what is true of the byte it loads is true of the new `V[x]`. -/
theorem finish_setV (P : Byte → Prop) (hb : P b) :
    ∃ t, s.finish (.ok (s.setV x b, .advance)) = .next t ∧ P (t.v x) ∧ t.pc = s.pc + 2#16 ∧
      OnlyWrites [.pc, .v x] s t := by
  refine ⟨(s.setV x b).setPc (s.pc + 2#16), rfl, ?result, rfl, frame_setV s x b _⟩
  case result => simpa using hb

/-- A handler that writes a flag, then loads `V[x]`, and advances: what is true of the byte it loads is true of the new
`V[x]`, and what is true of the flag is true of the new `VF` when it is not the destination (D4, log 5). -/
theorem finish_setFlagThenV {f : Bool} (P Q : Byte → Prop) (hb : P b) (hf : Q (flagByte f)) :
    ∃ t, s.finish (.ok (s.setFlagThenV f x b, .advance)) = .next t ∧ P (t.v x) ∧ (x ≠ VF → Q (t.v VF)) ∧
      t.pc = s.pc + 2#16 ∧ OnlyWrites [.pc, .v x, .v VF] s t := by
  refine ⟨(s.setFlagThenV f x b).setPc (s.pc + 2#16), rfl, ?result, fun hx => ?flag, rfl, frame_setFlagThenV s f x b _⟩
  case result => simpa [State.setFlagThenV_v] using hb
  case flag => simpa [State.setFlagThenV_v, hx] using hf

/-! ### The flags (R146 to R150) -/

/-- The flag of a comparison, as carry and not-borrow are. -/
theorem flagByte_decide (p : Prop) [Decidable p] : flagByte (decide p) = if p then 1#8 else 0#8 := by
  simp [flagByte]

/-- A flag that is a bit of an operand, as the two bits moved out are. -/
theorem flagByte_getLsbD_toNat (a : Byte) (k : Nat) : (flagByte (a.getLsbD k)).toNat = a.toNat / 2 ^ k % 2 := by
  have hflag : ∀ f : Bool, (flagByte f).toNat = f.toNat := by decide
  exact (hflag _).trans (Nat.toNat_testBit a.toNat k)

theorem flagByte_lowBitOf_toNat (a : Byte) : (flagByte (lowBitOf a)).toNat = a.toNat % 2 :=
  (flagByte_getLsbD_toNat a 0).trans (by omega)

theorem flagByte_highBitOf_toNat (a : Byte) : (flagByte (highBitOf a)).toNat = a.toNat / 128 := by
  have hlt : a.toNat < 256 := a.isLt
  exact (flagByte_getLsbD_toNat a 7).trans (by omega)

/-! ### The results modulo 256 (R147 to R150) -/

theorem byte_sub_toNat (a b : Byte) : (a - b).toNat = (a.toNat + 256 - b.toNat) % 256 := by
  have hlt : b.toNat < 256 := b.isLt
  rw [BitVec.toNat_sub]
  omega

theorem byte_shr_one_toNat (a : Byte) : (a >>> 1).toNat = a.toNat / 2 := by
  rw [BitVec.toNat_ushiftRight, Nat.shiftRight_one]

theorem byte_shl_one_toNat (a : Byte) : (a <<< 1).toNat = a.toNat * 2 % 256 := by
  rw [BitVec.toNat_shiftLeft, Nat.shiftLeft_eq]

/-! ### The instructions without a flag (R140 to R145) -/

/-- Settles O34: the byte loaded is `kk`, or the sum of bit vectors. -/
theorem immediateLoadAndAdd : Obligations.ImmediateLoadAndAdd :=
  fun s _ kk => ⟨finish_setV s (· = kk) rfl, finish_setV s (·.toNat = _) (BitVec.toNat_add _ _)⟩

/-- Settles O35: the byte loaded is `V[y]`. -/
theorem registerLoad : Obligations.RegisterLoad :=
  fun s _ y => finish_setV s (· = s.v y) rfl

/-- Settles O36: the bytes loaded are the logic operations on bit vectors, and the load writes no flag. -/
theorem logicOperations : Obligations.LogicOperations :=
  fun s x y =>
    ⟨finish_setV s (fun b => ∀ k, b.getLsbD k = ((s.v x).getLsbD k || (s.v y).getLsbD k)) fun _ => BitVec.getLsbD_or,
      finish_setV s (fun b => ∀ k, b.getLsbD k = ((s.v x).getLsbD k && (s.v y).getLsbD k)) fun _ => BitVec.getLsbD_and,
      finish_setV s (fun b => ∀ k, b.getLsbD k = ((s.v x).getLsbD k ^^ (s.v y).getLsbD k)) fun _ => BitVec.getLsbD_xor⟩

/-! ### The instructions with a flag (R146 to R150) -/

/-- Settles O37: the flag is the carry's comparison, and the result the sum of bit vectors. -/
theorem addWithCarry : Obligations.AddWithCarry :=
  fun s _ _ => finish_setFlagThenV s (·.toNat = _) (· = _) (BitVec.toNat_add _ _) (flagByte_decide _)

/-- Settles O38: SUBN is SUB with the operands exchanged, in the result and in the flag's strict comparison. -/
theorem subtractions : Obligations.Subtractions :=
  fun s _ _ => ⟨finish_setFlagThenV s (·.toNat = _) (· = _) (byte_sub_toNat _ _) (flagByte_decide _),
    finish_setFlagThenV s (·.toNat = _) (· = _) (byte_sub_toNat _ _) (flagByte_decide _)⟩

/-- Settles O39: the flag is bit 0 or bit 7 of the old `V[x]`; `y` does not enter. -/
theorem shifts : Obligations.Shifts :=
  fun s _ _ => ⟨finish_setFlagThenV s (·.toNat = _) (·.toNat = _) (byte_shr_one_toNat _) (flagByte_lowBitOf_toNat _),
    finish_setFlagThenV s (·.toNat = _) (·.toNat = _) (byte_shl_one_toNat _) (flagByte_highBitOf_toNat _)⟩

/-! ### RND (R151) -/

/-- Settles O40: the draw goes up by one before the masked byte is loaded, and the load keeps it. -/
theorem randomIsMasked : Obligations.RandomIsMasked := by
  intro s x kk
  refine ⟨((s.setDraws (s.draws + 1)).setV x (Config.rand8 s.draws &&& kk)).setPc (s.pc + 2#16), rfl, ?result,
    fun k hk => ?mask, rfl, rfl, ?frame⟩
  case result => simp
  case mask => simp [hk]
  case frame =>
    exact ((onlyWrites_setDraws s _ (by simp)).trans (onlyWrites_setV _ x _ (by simp))).trans
      (onlyWrites_setPc _ _ (by simp))

end Sys2Proof.Machine
end

section
/-! The index register and the moves between registers and memory (43_index_memory.md): what a handler that loads `I`,
stores a block or loads a block answers. -/

namespace Sys2Proof.Machine

variable (s : State)

/-! ### The index register (R170 to R172) -/

/-- A handler that loads `I` and advances: what is true of the word it loads is true of the new `I`. -/
theorem finish_setI {w : Word} (P : Word → Prop) (hw : P w) :
    ∃ t, s.finish (.ok (s.setI w, .advance)) = .next t ∧ P t.I ∧ t.pc = s.pc + 2#16 ∧ OnlyWrites [.pc, .index] s t :=
  ⟨(s.setI w).setPc (s.pc + 2#16), rfl, hw, rfl, (onlyWrites_setI s w (by simp)).trans (onlyWrites_setPc _ _ (by simp))⟩

/-- The largest glyph address, `0x050 + 5 × 255`, fits in `I`. -/
theorem State.glyphAddr_toNat (x : Reg) : (s.glyphAddr x).toNat = 0x050 + 5 * (s.v x).toNat := by
  have hlt : (s.v x).toNat < 256 := (s.v x).isLt
  simp only [State.glyphAddr, BitVec.toNat_ofNat, Config.fontBase, Config.glyphSize]
  omega

theorem State.wideOperand_toNat (x : Reg) : (s.wideOperand x).toNat = (s.v x).toNat :=
  BitVec.toNat_setWidth_of_le (by decide)

/-- Settles O41: the words loaded are the zero-extended address and the glyph address. -/
theorem indexLoads : Obligations.IndexLoads :=
  ⟨fun s nnn => finish_setI s (·.toNat = nnn.toNat) (addrOperand_toNat nnn),
    fun s x => finish_setI s (·.toNat = 0x050 + 5 * (s.v x).toNat) (s.glyphAddr_toNat x)⟩

/-- Settles O42: the word loaded is a sum of bit vectors, and the load writes no flag. -/
theorem indexAdd : Obligations.IndexAdd := by
  refine fun s x => finish_setI s (·.toNat = (s.I.toNat + (s.v x).toNat) % 65536) ?sum
  case sum => rw [BitVec.toNat_add, s.wideOperand_toNat]

/-! ### The stores (R173, R174) -/

section
variable {a n : Nat} {bs : List Byte} (hlen : bs.length = n + 1)
include hlen

/-- A store instruction whose block is in memory and misses the font writes it whole and advances; canonical memory
stays canonical and reads the block back. -/
theorem finish_store_ok (hin : a + n ≤ 0xFFF) (hfont : a + n < 0x050 ∨ 0x09F < a) :
    ∃ t, s.finish (do let u ← s.storeBytes a bs; return (u, .advance)) = .next t ∧ t.pc = s.pc + 2#16 ∧
      OnlyWrites (.pc :: memBlock a (n + 1)) s t ∧
      (s.M.wf → t.M.wf ∧ ∀ k (hk : k < bs.length), t.M.read (a + k) = bs[k]) := by
  have hend : a + bs.length ≤ Config.memSize := by rw [hlen]; exact Nat.succ_le_succ hin
  have hmiss : ¬ meetsFont a bs.length := by rw [hlen, meetsFont_iff]; omega
  refine ⟨(s.setM (s.M.writeAll a bs)).setPc (s.pc + 2#16), ?next, rfl, ?frame,
    fun hwf => ⟨Memory.wf_writeAll hwf bs hend, fun _ hk => Memory.read_writeAll_in hwf hend hk⟩⟩
  case next => rw [finish_store, if_neg (Nat.not_lt.mpr hend), if_neg hmiss]
  case frame =>
    exact (onlyWrites_store s bs hlen fun _ => List.mem_cons_of_mem _).trans (onlyWrites_setPc _ _ (by simp))

theorem finish_store_out (hout : 0xFFF < a + n) :
    ∃ t, s.finish (do let u ← s.storeBytes a bs; return (u, .advance)) = .next t ∧ t.FAULT = .dataOutOfRange ∧
      OnlyWrites [.fault] s t := by
  have hend : Config.memSize < a + (n + 1) := Nat.succ_lt_succ hout
  refine ⟨s.raise .dataOutOfRange, ?next, rfl, frame_raise s _⟩
  case next => rw [finish_store, hlen, if_pos hend]

/-- A block of at most 16 bytes that meets the font is in memory, so the font check decides. -/
theorem finish_store_font (hn : n ≤ 15) (hlo : 0x050 ≤ a + n) (hhi : a ≤ 0x09F) :
    ∃ t, s.finish (do let u ← s.storeBytes a bs; return (u, .advance)) = .next t ∧ t.FAULT = .fontWrite ∧
      OnlyWrites [.fault] s t := by
  have hend : ¬ Config.memSize < a + (n + 1) := by simp only [Config.memSize]; omega
  refine ⟨s.raise .fontWrite, ?next, rfl, frame_raise s _⟩
  case next => rw [finish_store, hlen, if_neg hend, if_pos ((meetsFont_iff a n).mpr ⟨hlo, hhi⟩)]

end

/-- Each decimal digit of a byte fits in a byte. -/
theorem bcdDigits_getElem_toNat (b : Byte) {k : Nat} (hk : k < 3) :
    (bcdDigits b)[k].toNat = [b.toNat / 100, b.toNat / 10 % 10, b.toNat % 10][k] := by
  have hlt : b.toNat < 256 := b.isLt
  match k with
  | 0 => exact Nat.mod_eq_of_lt (show b.toNat / 100 < 256 by omega)
  | 1 => exact Nat.mod_eq_of_lt (show b.toNat / 10 % 10 < 256 by omega)
  | 2 => exact Nat.mod_eq_of_lt (show b.toNat % 10 < 256 by omega)

/-- Settles O43: the block stored is the three digits, each read back as the byte it is. -/
theorem bcdStores : Obligations.BcdStores := by
  have hlen (s : State) (x : Reg) : (bcdDigits (s.v x)).length = 2 + 1 := rfl
  refine ⟨fun s x hin hfont => ?stored, fun s x => finish_store_out s (hlen s x),
    fun s x => finish_store_font s (hlen s x) (by decide)⟩
  case stored =>
    obtain ⟨t, hexec, hpc, hframe, hmem⟩ := finish_store_ok s (hlen s x) hin hfont
    refine ⟨t, hexec, hpc, hframe, fun hwf => ?_⟩
    obtain ⟨hcanon, hread⟩ := hmem hwf
    have hdigit (k : Nat) (hk : k < 3) := (congrArg BitVec.toNat (hread k hk)).trans (bcdDigits_getElem_toNat (s.v x) hk)
    exact ⟨hcanon, hdigit 0 (by decide), hdigit 1 (by decide), hdigit 2 (by decide)⟩

/-- Settles O44: the block stored is the registers up to `V[x]`. -/
theorem registerBlockStores : Obligations.RegisterBlockStores := by
  refine ⟨fun s x hin hfont => ?stored, fun s x => finish_store_out s (s.length_vUpTo x),
    fun s x => finish_store_font s (s.length_vUpTo x) (Nat.le_of_lt_succ x.isLt)⟩
  case stored =>
    obtain ⟨t, hexec, hpc, hframe, hmem⟩ := finish_store_ok s (s.length_vUpTo x) hin hfont
    refine ⟨t, hexec, hpc, hframe, fun hwf => ?_⟩
    obtain ⟨hcanon, hread⟩ := hmem hwf
    refine ⟨hcanon, fun k hk => ?_⟩
    have hklen : k.toNat < (s.vUpTo x).length := by rw [s.length_vUpTo]; exact Nat.lt_succ_of_le hk
    calc t.M.read (s.I.toNat + k.toNat)
      _ = (s.vUpTo x)[k.toNat] := hread _ hklen
      _ = s.v (BitVec.ofNat 4 k.toNat) := s.getElem_vUpTo x hklen
      _ = s.v k := by rw [BitVec.ofNat_toNat, BitVec.setWidth_eq]

/-! ### The load (R175) -/

/-- Settles O45: the registers up to `V[x]` take the bytes of the block at `I`, the font's too. -/
theorem registerBlockLoads : Obligations.RegisterBlockLoads := by
  refine ⟨fun s x hin => ?loaded, fun s x hout => ?fault⟩
  case loaded =>
    have hexec := (execLdVxMem_eq x s).trans (if_neg (Nat.not_lt.mpr (Nat.succ_le_succ hin)))
    refine ⟨_, hexec, rfl, fun k hk => ?bytes, ?frame⟩
    case bytes =>
      rw [State.setPc_v, State.setVs_v, s.getD_blockAt, if_pos (Nat.lt_succ_of_le hk)]
      rfl
    case frame =>
      exact (onlyWrites_setVs s x _ (s.length_blockAt _ _) fun _ => List.mem_cons_of_mem _).trans
        (onlyWrites_setPc _ _ (by simp))
  case fault =>
    exact ⟨_, (execLdVxMem_eq x s).trans (if_pos (Nat.succ_lt_succ hout)), rfl, frame_raise s _⟩

end Sys2Proof.Machine
end

section
/-! The timers (44_timers.md): the three timer instructions, and the tick at the end of every step that does not
fault. -/

namespace Sys2Proof.Machine

/-! ### The handlers, before the tick (R190 to R192) -/

/-- Settles O46: each loads one register or one timer, and advances. -/
theorem timerInstructions : Obligations.TimerInstructions := by
  intro s x
  refine ⟨finish_setV s (· = s.DT) rfl, ⟨(s.setDT (s.v x)).setPc (s.pc + 2#16), rfl, rfl, rfl, ?dtFrame⟩,
    ⟨(s.setST (s.v x)).setPc (s.pc + 2#16), rfl, rfl, rfl, ?stFrame⟩⟩
  case dtFrame => exact (onlyWrites_setDT s _ (by simp)).trans (onlyWrites_setPc _ _ (by simp))
  case stFrame => exact (onlyWrites_setST s _ (by simp)).trans (onlyWrites_setPc _ _ (by simp))

/-! ### The tick after them (R193 to R195, 70_reset_and_hazards.md R297) -/

/-- Settles O14: the step of a decoded word is its handler and then the tick, that of a rejected word is O7's. -/
theorem timersTickAfterHandler : Obligations.TimersTickAfterHandler := by
  refine ⟨fun s t u w i ha hd hu hr ht => ?decoded, fun s t w r ha hd ht => ?rejected⟩
  case decoded =>
    cases ht.symm.trans (step_ticks ha hd hu hr)
    exact ⟨u.tick_DT_toNat, u.tick_ST_toNat, u.tick_pc⟩
  case rejected =>
    obtain ⟨t', ht', hpc, -, -, hDT, hST, -⟩ := unknownWordIsReportedNoOp s w r ha hd
    cases ht.symm.trans ht'
    exact ⟨hDT, hST, hpc⟩

/-- Settles O47: each step ends in the tick of what its load left, so a loaded timer counts from the value loaded,
while `V[x]` keeps the `DT` that was read (D21, log 20). -/
theorem timerWriteThenTick : Obligations.TimerWriteThenTick := by
  refine fun s x => ⟨fun ha => ?loadDT, fun ha => ?loadST, fun ha => ?readDT⟩
  case loadDT =>
    have hd := decodeWord_encode (i := .ldDTVx x) rfl
    exact ⟨_, step_ticks ha hd rfl ha.1, ha.1, State.tick_DT_toNat _⟩
  case loadST =>
    have hd := decodeWord_encode (i := .ldSTVx x) rfl
    exact ⟨_, step_ticks ha hd rfl ha.1, ha.1, State.tick_ST_toNat _, beq_iff_eq⟩
  case readDT =>
    have hd := decodeWord_encode (i := .ldVxDT x) rfl
    refine ⟨_, step_ticks ha hd rfl ha.1, ha.1, ?value, State.tick_DT_toNat _⟩
    case value => simp

end Sys2Proof.Machine
end

section
/-! The keypad (45_input.md): the two key skips and the wait for a key. -/

namespace Sys2Proof.Machine

variable {s : State} {b : Byte}

/-! ### The key skips (R210, R211) -/

/-- A key skip on an index within the keypad is a skip on a test `f` of that key. -/
theorem finish_keySkip {f : Bool → Bool} {k : Fin 16} {p : Prop} [Decidable p] (hb : b.toNat = k.val)
    (hf : f s.K[k.val] = true ↔ p) :
    ∃ t, s.finish (do let down ← s.key b; return (s, skipIf (f down))) = .next t ∧
      (t.pc = if p then s.pc + 4#16 else s.pc + 2#16) ∧ OnlyWrites [.pc] s t := by
  have hkey : s.key b = .ok s.K[k.val] := by simp [s.key_ok b (hb ▸ k.isLt), hb]
  rw [hkey]
  exact finish_skipIf s hf

/-- Settles O48: the two skips test the key that `V[x]` names, and beyond the keypad both raise the fault. -/
theorem keySkips : Obligations.KeySkips := by
  refine ⟨fun s x k hk => ?inside, fun s x hout => ?beyond⟩
  case inside =>
    have hskp := finish_keySkip (f := id) (p := s.K[k.val] = true) hk Iff.rfl
    have hsknp := finish_keySkip (f := not) (p := s.K[k.val] = false) hk (iff_of_eq (Bool.not_eq_true' _))
    exact ⟨hskp, hsknp⟩
  case beyond =>
    have hout : ¬ (s.v x).toNat < 16 := Nat.not_lt.mpr hout
    exact ⟨⟨_, execSkp_out x s hout, rfl, frame_raise s _⟩, ⟨_, execSknp_out x s hout, rfl, frame_raise s _⟩⟩

/-! ### The wait for a key (R212) -/

/-- A pressed key with none pressed above it is the one the scan finds. -/
theorem State.highestKey_eq_some {k : Fin 16} (hdown : s.K[k.val] = true)
    (habove : ∀ j : Fin 16, k < j → s.K[j.val] = false) : s.highestKey = some k.val := by
  refine (scanKeys_eq_some (Nat.le_refl 16)).mpr ⟨k.isLt, ?down, fun j hkj hj => ?above⟩
  case down => simp [hdown]
  case above => simpa [Vector.getElem?_eq_getElem hj] using habove ⟨j, hj⟩ hkj

/-- With no key pressed the scan finds none. -/
theorem State.highestKey_eq_none (hup : ∀ k : Fin 16, s.K[k.val] = false) : s.highestKey = none :=
  (scanKeys_eq_none (Nat.le_refl 16)).mpr fun j hj => by
    simpa [Vector.getElem?_eq_getElem hj] using hup ⟨j, hj⟩

/-- The wait with a key found loads its index and advances. -/
theorem execLdVxK_some {x : Reg} {k : Nat} (h : s.highestKey = some k) :
    execLdVxK x s = s.finish (.ok (s.setV x (BitVec.ofNat 8 k), .advance)) := by
  simp only [execLdVxK, h]

/-- The wait with no key found answers the state it was given. -/
theorem execLdVxK_none {x : Reg} (h : s.highestKey = none) : execLdVxK x s = .next s := by
  simp only [execLdVxK, h, State.finish_ok, Flow.next_retry]
  rfl

/-- Settles O49: the highest pressed key is what the scan finds, and a scan that finds none retries. -/
theorem keyWait : Obligations.KeyWait := by
  refine ⟨fun s x k hdown habove => ?pressed, fun s x hup => execLdVxK_none (State.highestKey_eq_none hup)⟩
  case pressed =>
    have hexec : exec (.ldVxK x) s = _ := execLdVxK_some (State.highestKey_eq_some hdown habove)
    have hbyte : (BitVec.ofNat 8 k.val).toNat = k.val := Nat.mod_eq_of_lt (by omega)
    rw [hexec]
    exact finish_setV s (·.toNat = k.val) hbyte

end Sys2Proof.Machine
end

section
/-! The display (46_display.md): the pixel and its port, CLS, and what DRW does to every pixel and to `VF`. -/

namespace Sys2Proof.Machine

/-! ### The pixel and the framebuffer port (R231, R232) -/

theorem Pixel.toggle_fst (p : Pixel) : p.toggle.1 = if p = .on then .off else .on := by cases p <;> rfl

theorem Pixel.toggle_fst_eq_on_iff (p : Pixel) : p.toggle.1 = .on ↔ p = .off := by cases p <;> decide

theorem Pixel.toggle_snd_iff (p : Pixel) : p.toggle.2 = true ↔ p = .on := by cases p <;> decide

theorem Pixel.word_eq (p : Pixel) : p.word = if p = .on then 0xFFFFFFFF#32 else 0x00000000#32 := by cases p <;> rfl

theorem Pixel.word_toggle (p : Pixel) : p.toggle.1.word = p.word ^^^ 0xFFFFFFFF#32 := by cases p <;> decide

/-- Settles O54: toggle is settled value by value, and the framebuffer at reset is the blank one. -/
theorem pixelStateMachine : Obligations.PixelStateMachine :=
  ⟨rfl, rfl, Pixel.word_toggle, Pixel.toggle_snd_iff, Framebuffer.pixel_blank, Framebuffer.pixel_blank⟩

/-- Settles O55: `c < 64`, so the element's quotient and remainder by 64 are `r` and `c`. -/
theorem portIsRowMajor : Obligations.PortIsRowMajor := by
  intro s c r k hk
  have hcol : (⟨k.val % 64, Nat.mod_lt _ (by decide)⟩ : Fin 64) = c := Fin.ext (show k.val % 64 = c.val by omega)
  have hrow : (⟨k.val / 64, by omega⟩ : Fin 32) = r := Fin.ext (show k.val / 64 = r.val by omega)
  rw [State.portWord, hcol, hrow, Pixel.word_eq]

/-! ### CLS (R233) -/

/-- Settles O51: the framebuffer written is the blank one. -/
theorem clsClears : Obligations.ClsClears := by
  refine ⟨decodeWord_encode (i := .cls) rfl, fun s => ?cleared⟩
  case cleared =>
    refine ⟨(s.setFB .blank).setPc (s.pc + 2#16), rfl, Framebuffer.pixel_blank, rfl, rfl, ?frame⟩
    case frame => exact (onlyWrites_setFB s _ fun c r => by simp).trans (onlyWrites_setPc _ _ (by simp))

/-! ### DRW (R234 to R236) -/

/-- A DRW whose sprite lies in memory paints the sprite's cells and loads the collision into `VF`. -/
theorem exec_drw_ok (s : State) (x y : Reg) {n : Nib} (hin : n.toNat = 0 ∨ s.I.toNat + n.toNat - 1 ≤ 0xFFF) :
    ∃ fb hit, exec (.drw x y n) s = .next (((s.setFB fb).setV VF (flagByte hit)).setPc (s.pc + 2#16)) ∧
      Paints (s.paints x y n) (s.FB, false) (fb, hit) := by
  have hfits : ¬ (Config.memSize < s.indexAddr + n.toNat ∧ 0 < n.toNat) := by
    simp only [Config.memSize, State.indexAddr]
    omega
  exact ⟨_, _, (execDrw_eq x y n s).trans (if_neg hfits), drawn_paints s x y n⟩

/-- Settles O52: painting gives the pixels and the collision; the rest are named updates of the state. -/
theorem drwTogglesSprite : Obligations.DrwTogglesSprite := by
  intro s x y n hin
  obtain ⟨fb, hit, hexec, hpaints⟩ := exec_drw_ok s x y hin
  have hflag : (((s.setFB fb).setV VF (flagByte hit)).setPc (s.pc + 2#16)).v VF = flagByte hit := by simp
  refine ⟨_, hexec, rfl, fun c r hcell => ?toggled, hpaints.outside, ?flagValues, ?collision, ?frame⟩
  case toggled => exact (hpaints.inside c r hcell).trans (Pixel.toggle_fst _)
  case flagValues => rw [hflag]; exact flagByte_cases hit
  case collision => rw [hflag, flagByte_eq_one, hpaints.hit, Bool.false_eq_true, false_or]
  case frame =>
    exact ((onlyWrites_setFB s fb fun c r => by simp).trans (onlyWrites_setV _ VF _ (by simp))).trans
      (onlyWrites_setPc _ _ (by simp))

/-- The cells a sprite paints depend on its origin registers, on `I` and on memory alone. -/
theorem State.paints_congr {s t : State} {x y : Reg} (hx : t.v x = s.v x) (hy : t.v y = s.v y) (hI : t.I = s.I)
    (hM : ∀ a, t.M.read a = s.M.read a) (n : Nib) (c : Fin 64) (r : Fin 32) :
    t.paints x y n c r ↔ s.paints x y n c r := by
  simp only [State.paints, hx, hy, hI, hM]

/-- Settles O53: the first draw writes nothing the sprite's cells depend on, so the second toggles the same cells, and
meets as `On` those that were `Off`. -/
theorem drwTwiceRestores : Obligations.DrwTwiceRestores := by
  intro s x y n hin hx hy
  obtain ⟨t, ht, -, htin, htout, -, -, hframe⟩ := drwTogglesSprite s x y n hin
  have hI : t.I = s.I := hframe .index (by simp)
  have hcells := State.paints_congr (hframe (.v x) (by simp [hx])) (hframe (.v y) (by simp [hy])) hI
    (fun a => hframe (.mem a) (by simp)) n
  obtain ⟨u, hu, -, huin, huout, -, huhit, -⟩ := drwTogglesSprite t x y n (hI ▸ hin)
  simp only [hcells, ← Pixel.toggle_fst] at htin huin huout huhit
  refine ⟨t, u, ht, hu, fun c r => ?restored, huhit.trans ?collision⟩
  case restored =>
    by_cases hcell : s.paints x y n c r
    · rw [huin c r hcell, htin c r hcell, Pixel.toggle_toggle]
    · rw [huout c r hcell, htout c r hcell]
  case collision =>
    refine exists_congr fun c => exists_congr fun r => and_congr_right fun hcell => ?_
    rw [htin c r hcell, Pixel.toggle_fst_eq_on_iff]

end Sys2Proof.Machine
end

section
/-! The faults of 60_exceptions.md: which cause each instruction raises on a running core, and when. -/

namespace Sys2Proof.Machine

variable {i : Instr} {s t : State}

/-! ### The shapes of the instructions that can fault -/

/-- The fault of an answer that takes a fault under a condition `p`, stated by an equivalent `q`. -/
theorem FAULT_of_guard {p q : Prop} [Decidable p] [Decidable q] {c d : Cause} {o : Host.Outcome State Fault Refusal}
    (hpq : p ↔ q) (hpast : o = .next t → t.FAULT = d) (h : (if p then .next (s.raise c) else o) = .next t) :
    t.FAULT = if q then c else d := by
  simp only [← hpq]
  split at h
  · cases h; exact (if_pos ‹_›).symm
  · exact (hpast h).trans (if_neg ‹_›).symm

/-- A store of the block `a`..`a + n` faults by its range first, then by the font (43_index_memory.md R173, R174). -/
theorem finish_store_FAULT {a n : Nat} {bs : List Byte} (hlen : bs.length = n + 1) (hs : s.running)
    (h : s.finish (do let u ← s.storeBytes a bs; return (u, .advance)) = .next t) :
    t.FAULT = if 4096 ≤ a + n then .dataOutOfRange
      else if 0x050 ≤ a + n ∧ a ≤ 0x09F then .fontWrite else .none := by
  rw [finish_store, hlen] at h
  exact FAULT_of_guard Nat.lt_succ_iff (FAULT_of_guard (meetsFont_iff a n) fun hstored => by cases hstored; exact hs) h

/-- Both key skips fault on an index above the keypad (45_input.md R210, R211). -/
theorem finish_key_FAULT {b : Byte} {f : Bool → Bool} (hs : s.running)
    (h : s.finish (do let down ← s.key b; return (s, skipIf (f down))) = .next t) :
    t.FAULT = if 16 ≤ b.toNat then .keyIndexOutOfRange else .none := by
  by_cases hb : b.toNat < 16
  · rw [s.key_ok b hb] at h
    cases h
    exact hs.trans (if_neg (Nat.not_le.mpr hb)).symm
  · rw [s.key_out b hb] at h
    cases h
    exact (if_pos (Nat.not_lt.mp hb)).symm

theorem exec_ret_FAULT (hs : s.running) (h : exec .ret s = .next t) :
    t.FAULT = if s.SP.val = 0 then .stackUnderflow else .none := by
  by_cases hsp : s.SP.val = 0
  · cases h.symm.trans (execRet_empty s hsp)
    exact (if_pos hsp).symm
  · have htop : s.SP.val = s.SP.val - 1 + 1 := by omega
    cases h.symm.trans (execRet_ok s ⟨s.SP.val - 1, by omega⟩ htop)
    exact hs.trans (if_neg hsp).symm

theorem exec_call_FAULT {nnn : Addr} (hs : s.running) (h : exec (.call nnn) s = .next t) :
    t.FAULT = if s.SP.val = 16 then .stackOverflow else .none := by
  by_cases hsp : s.SP.val < 16
  · cases h.symm.trans (execCall_ok nnn s hsp)
    exact hs.trans (if_neg hsp.ne).symm
  · cases h.symm.trans (execCall_full nnn s hsp)
    exact (if_pos (by omega)).symm

/-! ### Every instruction (60_exceptions.md R261, R264) -/

/-- On a running core an instruction leaves `FAULT` at the cause of its rule, or at none. -/
theorem exec_FAULT (hs : s.running) (h : exec i s = .next t) : t.FAULT = faultOf i s := by
  cases i with
  | cls | sys _ | jp _ | seImm _ _ | sneImm _ _ | seReg _ _ _ | sneReg _ _ _ | jpV0 _ => cases h; exact hs
  | ldImm _ _ | addImm _ _ | ldReg _ _ | orReg _ _ | andReg _ _ | xorReg _ _ | rnd _ _ => cases h; exact hs
  | addReg _ _ | sub _ _ | shr _ _ | subn _ _ | shl _ _ => cases h; exact hs
  | ldI _ | addI _ | ldF _ | ldVxDT _ | ldDTVx _ | ldSTVx _ => cases h; exact hs
  | ldVxK _ =>
    obtain ⟨_, rfl⟩ | rfl := exec_ldVxK_cases h
    · exact hs
    · exact hs
  | ret => exact exec_ret_FAULT hs h
  | call _ => exact exec_call_FAULT hs h
  | skp _ => exact finish_key_FAULT (f := id) hs h
  | sknp _ => exact finish_key_FAULT (f := not) hs h
  | ldB _ => exact finish_store_FAULT rfl hs h
  | ldMemVx x => exact finish_store_FAULT (s.length_vUpTo x) hs h
  | ldVxMem x =>
    exact FAULT_of_guard Nat.lt_succ_iff (fun hloaded => by cases hloaded; exact hs) ((execLdVxMem_eq x s).symm.trans h)
  | drw x y n =>
    have hrange : Config.memSize < s.indexAddr + n.toNat ∧ 0 < n.toNat ↔
        n.toNat ≠ 0 ∧ 4096 ≤ s.I.toNat + n.toNat - 1 := by
      simp only [Config.memSize, State.indexAddr]
      omega
    exact FAULT_of_guard hrange (fun hdrawn => by cases hdrawn; exact hs) ((execDrw_eq x y n s).symm.trans h)

/-- Settles O11: every instruction leaves `FAULT` at the cause of its rule, and one that raises a fault changes `FAULT`
alone. -/
theorem faultsAreThese : Obligations.FaultsAreThese := by
  intro i s hs
  obtain ⟨t, ht⟩ := exec_answers i s
  have hcause := exec_FAULT hs ht
  refine ⟨t, ht, hcause, fun hfault => ?alone⟩
  case alone =>
    rw [← hcause] at hfault ⊢
    exact exec_faulted hs ht hfault

end Sys2Proof.Machine
end

section
/-! The host's loader, and the two ways a running core repeats one word for ever: the wait for a key that nobody presses
and the jump to its own address (70_reset_and_hazards.md R291, R292, R298, R301). -/

namespace Sys2Proof.Machine

variable {s : State} {w : Word}

/-! ### Steps that repeat their own word (R298, R301) -/

/-- An instruction that leaves the state it is run on as it is makes a step of nothing but fetch and tick, after which
the core is about to run the same word again. -/
theorem step_repeats {i : Instr} (ha : s.about w) (hd : decodeWord w = .ok i)
    (hidle : exec i (s.begin w false) = .next (s.begin w false)) :
    step s = .next (s.begin w false).tick ∧ (s.begin w false).tick.about w ∧
      OnlyWrites [.ir, .unknown, .soundExpired, .dt, .st] s (s.begin w false).tick := by
  refine ⟨step_ticks ha hd hidle ha.1, ha, ?frame⟩
  case frame =>
    exact (onlyWrites_begin s w false (by simp) (by simp) (by simp)).trans
      (onlyWrites_tick _ (by simp) (by simp) (by simp))

/-- Settles O50: with no key pressed the wait is such an instruction. -/
theorem keyWaitRepeatsAndTicks : Obligations.KeyWaitRepeatsAndTicks := by
  intro s x ha hup
  have hd := decodeWord_encode (i := .ldVxK x) rfl
  have hidle : exec (.ldVxK x) (s.begin (0xF#4 ++ x ++ 0x0A#8) false) = .next _ :=
    execLdVxK_none (State.highestKey_eq_none hup)
  obtain ⟨hstep, habout, hframe⟩ := step_repeats ha hd hidle
  exact ⟨_, hstep, habout, rfl, State.tick_DT_toNat _, State.tick_ST_toNat _, hframe⟩

/-- A jump to the address it is run at leaves the state as it is. -/
theorem exec_jp_self {nnn : Addr} (hpc : s.pc.toNat = nnn.toNat) : exec (.jp nnn) s = .next s := by
  have htarget : addrOperand nnn = s.pc := BitVec.eq_of_toNat_eq ((addrOperand_toNat nnn).trans hpc.symm)
  have hexec : exec (.jp nnn) s = .next (s.setPc (addrOperand nnn)) := rfl
  rw [hexec, htarget]
  rfl

/-- A core parked at an even address fetches without a fault: the address has 12 bits, so it is at most 0xFFE. -/
theorem State.parked.about (hp : s.parked) (heven : s.pc.toNat % 2 = 0) :
    ∃ nnn : Addr, s.about (0x1#4 ++ nnn : Word) ∧ s.pc.toNat = nnn.toNat := by
  obtain ⟨hrun, nnn, hword, hpc⟩ := hp
  exact ⟨nnn, ⟨hrun, ⟨by omega, heven⟩, hword⟩, hpc⟩

/-- Settles O57: the jump of a parked core is such an instruction. -/
theorem parkedStaysParked : Obligations.ParkedStaysParked := by
  intro s hp heven
  obtain ⟨nnn, ha, hpc⟩ := hp.about heven
  have hd := decodeWord_encode (i := .jp nnn) rfl
  obtain ⟨hstep, ⟨hrun, -, hword⟩, hframe⟩ := step_repeats ha hd (exec_jp_self hpc)
  exact ⟨_, hstep, ⟨hrun, nnn, hword, hpc⟩, hframe⟩

/-! ### The loader (R291, R292; C2, log 29) -/

theorem State.hostLoad_long {image : List Byte} (h : Config.progMax < image.length) :
    s.hostLoad image = .error .programTooLarge := if_pos h

theorem State.hostLoad_fits {image : List Byte} (h : image.length ≤ Config.progMax) :
    s.hostLoad image = .ok (s.setM (s.M.writeAll Config.progBase image)) := if_neg (Nat.not_lt.mpr h)

/-- Settles O56: an image that is not refused ends by the end of memory, so it is a block write inside memory. -/
theorem loaderCopiesOrRefuses : Obligations.LoaderCopiesOrRefuses := by
  refine fun s image => ⟨State.hostLoad_long, fun hfits => ⟨_, State.hostLoad_fits hfits, ?frame, fun hwf => ?copied⟩⟩
  case frame => exact onlyWrites_store s image rfl fun _ => id
  case copied =>
    have hin : Config.progBase + image.length ≤ Config.memSize := Nat.add_le_add_left hfits _
    exact ⟨Memory.wf_writeAll hwf image hin, fun k hk => Memory.read_writeAll_in hwf hin hk⟩

end Sys2Proof.Machine
end
